-- ==== Sys2Proof/Word.lean ====
section
/-! DEFINITION. The words of the machine (spec/00_scope.md R7, R9): the widths every other file uses, each fixed by
the spec. All are bit vectors because the spec shifts, slices or reduces them modulo a power of two. -/

namespace Sys2Proof

/-- "Word: unsigned 32-bit integer": register contents, memory cells, instructions (R7). -/
abbrev Word := BitVec 32

/-- A 16-bit address; it names one word, never a byte (R7, R50). -/
abbrev Addr := BitVec 16

/-- One 16-bit half of a word (R9). -/
abbrev Half := BitVec 16

/-- Index of a data register, 0 to 31 (R103). -/
abbrev RegIdx := BitVec 5

/-- Index of a status register, 0 to 31 (R25). -/
abbrev StatIdx := BitVec 5

/-- Index of a cache set, address bits 15:11 (R58). -/
abbrev SetIdx := BitVec 5

/-- Index of a way in a set, 0 to 7 (R57). -/
abbrev WayIdx := BitVec 3

/-- Tag of a cache way, address bits 10:0 (R58). -/
abbrev Tag := BitVec 11

end Sys2Proof
end

