-- ==== Sys2Proof/Config.lean ====
section
/-! DEFINITION. What the spec leaves open. Every size is fixed by the spec (spec/00_scope.md R7), so nothing here is a
parameter of an implementation; the one open value is the tracker's count past its width. -/

namespace Sys2Proof

/-- FREE VALUE (log entry 4). What the 64-bit `cycles` counter holds after an addition whose exact sum does not fit
in 64 bits: "`any value` beyond 2^64 - 1" (spec/93_implementation_defined.md U7, spec/70_reset_and_hazards.md R300).
The argument is the exact sum. Nothing can evaluate it. -/
opaque Config.cyclesPastMax : Nat → BitVec 64

end Sys2Proof
end

