-- ==== Sys2Proof/Machine/State.lean ====
section
/-! DEFINITION. The state of the core (spec/10_state.md), the reasons a step can stop, and the state after power-on and
reset. Plain data throughout. -/

namespace Sys2Proof.Machine

/-- The record of the one fatal error: the address and the word of the offending instruction (spec/60_exceptions.md
R251). -/
structure BadInstruction where
  pc : Addr
  iw : Word
  deriving DecidableEq, Repr

/-- RAM as a list of cells (address, word) in one canonical form, `Memory.wf` of Machine/Ops.lean. The cell is the
smallest addressable unit, one 32-bit word (spec/20_memory.md R50, R54; log entry 1). -/
abbrev Memory := List (Nat × Word)

/-- One way of a cache set (spec/20_memory.md R57). -/
structure Way where
  valid : Bool
  tag   : Tag
  value : Word
  deriving DecidableEq, Repr

/-- The seven PLRU bits of a set, "seven separate bits" (spec/20_memory.md R59). -/
structure Plru where
  b0 : Bool
  b1 : Bool
  b2 : Bool
  b3 : Bool
  b4 : Bool
  b5 : Bool
  b6 : Bool
  deriving DecidableEq, Repr

/-- One cache set: eight ways and its PLRU bits (spec/20_memory.md R57, R59). -/
structure CacheSet where
  ways : Vector Way 8
  plru : Plru
  deriving DecidableEq, Repr

/-- The output events (spec/10_state.md R33). -/
inductive Event where
  | fetch (addr : Addr)
  | hit (addr : Addr)
  | miss (addr : Addr)
  | writeCache (set : SetIdx) (way : WayIdx)
  | print (a b m : Word)
  deriving DecidableEq, Repr

/-- The cost tracker (spec/70_reset_and_hazards.md R296). The two sets are lists without repeats in rising order
(`Tracker.wf` of Machine/Cost.lean), so that equal sets are equal data (log entry 12). -/
structure Tracker where
  cycles               : BitVec 64
  uniqueCacheLocations : List (SetIdx × WayIdx)
  uniqueRamLocations   : List Addr
  deriving DecidableEq, Repr

/-- The state of the core, its output trace and its attached tracker (spec/10_state.md R20, R33;
spec/70_reset_and_hazards.md R296). -/
structure State where
  /-- `R[2..31]`; `R[0]` and `R[1]` have no storage (R21). -/
  regs    : Vector Word 30
  /-- `S[0..31]` (R25). -/
  status  : Vector Bool 32
  /-- The 16-bit program counter (R27). -/
  pc      : Addr
  /-- True until HALT or BadInstruction (R29). -/
  running : Bool
  /-- The latched fatal error, the spec's own `none` or `BadInstruction(pc, iw)` (R30). -/
  fault   : Option BadInstruction
  /-- The 65 536 words behind the cache (R34). -/
  ram     : Memory
  /-- The 32 sets of the cache (R35). -/
  cache   : Vector CacheSet 32
  /-- The events emitted since reset, oldest first (R33; log entry 11). -/
  trace   : List Event
  /-- The cost tracker, attached from reset (R301). -/
  tracker : Tracker
  deriving DecidableEq, Repr

/-- Why a step is not enabled: the stuck states of a core whose run has ended (spec/40_step_nop_halt.md R132). Both
are safe: the model stops where the spec enables no step. -/
inductive Fault where
  /-- Raised by `step` when `running = false` and no error is latched: a HALT ended the run. Safe. -/
  | halted
  /-- Raised by `step` when `running = false` and the error `e` is latched: a failed run (spec/60_exceptions.md R255).
  Safe. -/
  | stoppedByBadInstruction (e : BadInstruction)
  deriving DecidableEq, Repr

/-- What the model gives no meaning to. -/
inductive Refusal where
  /-- Raised by an arm of `exec` whose instruction has no meaning; no arm of this model does. Safe. -/
  | notModelled (mnemonic : String)
  /-- Raised by the host operation `load` when some cache way is valid: "a model refuses them"
  (spec/20_memory.md R78). Safe. -/
  | loadWhileCacheValid
  /-- Raised by the host operation `load` on an image longer than the memory (spec/70_reset_and_hazards.md R280).
  Safe. -/
  | imageTooLong
  deriving DecidableEq, Repr

/-- An invalid way. Its tag and value are unspecified and never read (spec/20_memory.md R57); zero is DESIGN CHOICE,
log entry 3. -/
def Way.invalid : Way := { valid := false, tag := 0, value := 0 }

/-- A set after reset: all ways invalid, "all 7 bits zero" (spec/10_state.md R36). -/
def CacheSet.empty : CacheSet :=
  { ways := Vector.replicate 8 Way.invalid,
    plru := { b0 := false, b1 := false, b2 := false, b3 := false, b4 := false, b5 := false, b6 := false } }

/-- The tracker when it is attached: "all zero or empty" (spec/70_reset_and_hazards.md R296). -/
def Tracker.zero : Tracker := { cycles := 0, uniqueCacheLocations := [], uniqueRamLocations := [] }

/-- The core after `power_on` (RAM all zero, so nothing listed) and `reset` (spec/10_state.md R36;
spec/70_reset_and_hazards.md R280, R281). -/
def State.reset : State :=
  { regs := Vector.replicate 30 0
    status := Vector.replicate 32 false
    pc := 0
    running := true
    fault := none
    ram := []
    cache := Vector.replicate 32 CacheSet.empty
    trace := []
    tracker := Tracker.zero }

end Sys2Proof.Machine
end

