-- ==== Sys2Proof/Machine/Cost.lean ====
section
/-! DEFINITION. The cost tracker's update rules, one per event (spec/70_reset_and_hazards.md R295 to R299). -/

namespace Sys2Proof.Machine

/-- Add `ns` nanoseconds to the 64-bit counter; a sum that does not fit is the free value (R296, R300, log entry 4). -/
def addCycles (cycles : BitVec 64) (ns : Nat) : BitVec 64 :=
  if cycles.toNat + ns < 2 ^ 64 then BitVec.ofNat 64 (cycles.toNat + ns)
  else Config.cyclesPastMax (cycles.toNat + ns)

/-- Insert into a set kept as a list that rises strictly by `key`; an element already there is not repeated. -/
def insertRising {α : Type} (key : α → Nat) (x : α) : List α → List α
  | [] => [x]
  | y :: ys =>
    if key x < key y then x :: y :: ys
    else if key x = key y then y :: ys
    else y :: insertRising key x ys

/-- The order of (set, way) pairs. -/
def locationKey (p : SetIdx × WayIdx) : Nat := p.1.toNat * 8 + p.2.toNat

/-- The order of addresses. -/
def addrKey (a : Addr) : Nat := a.toNat

/-- What one event does to the tracker (R297). -/
def observe (t : Tracker) : Event → Tracker
  | .fetch _ => { t with cycles := addCycles t.cycles 1 }
  | .hit _ => { t with cycles := addCycles t.cycles 1 }
  | .miss a =>
    { t with cycles := addCycles t.cycles 80, uniqueRamLocations := insertRising addrKey a t.uniqueRamLocations }
  | .writeCache st w => { t with uniqueCacheLocations := insertRising locationKey (st, w) t.uniqueCacheLocations }
  | .print _ _ _ => t

/-- The tracker that has observed a whole trace, oldest event first, from its attachment at reset (R296, R301). -/
def trackerOf (trace : List Event) : Tracker := trace.foldl observe Tracker.zero

/-- The canonical form of the tracker's two sets. -/
abbrev Tracker.wf (t : Tracker) : Prop :=
  t.uniqueCacheLocations.Pairwise (fun p q => locationKey p < locationKey q) ∧
  t.uniqueRamLocations.Pairwise (fun a b => addrKey a < addrKey b)

/-- The cost report the host reads (R299). -/
structure CostReport where
  totalNs            : BitVec 64
  cacheLocationsUsed : BitVec 32
  ramLocationsUsed   : BitVec 32
  deriving DecidableEq, Repr

/-- `cycles` and the sizes of the two sets (R299); they fit, at most 256 and 65 536 (R296). -/
def costReport (t : Tracker) : CostReport :=
  { totalNs := t.cycles
    cacheLocationsUsed := BitVec.ofNat 32 t.uniqueCacheLocations.length
    ramLocationsUsed := BitVec.ofNat 32 t.uniqueRamLocations.length }

end Sys2Proof.Machine
end

