-- ==== Sys2Proof/Machine/Ops.lean ====
section
/-! DEFINITION. The named operations over the state: registers, status bits, program counter, RAM, the PLRU tree, the
cache, the two memory primitives, the instruction fetch, and taking the one exception. -/

namespace Sys2Proof.Machine

/-! ### Data registers, status registers, program counter -/

/-- Register read `x[i]` over the stored registers: 0 and 1 are hardwired (spec/10_state.md R21). -/
def readRegs (regs : Vector Word 30) (i : RegIdx) : Word :=
  if h : 2 ≤ i.toNat then regs[i.toNat - 2]'(by have := i.isLt; omega)
  else if i = 1 then 1 else 0

/-- Register write `x[i] <- v`, discarded when `i` is 0 or 1 (spec/10_state.md R22). -/
def writeRegs (regs : Vector Word 30) (i : RegIdx) (v : Word) : Vector Word 30 :=
  if h : 2 ≤ i.toNat then regs.set (i.toNat - 2) v (by have := i.isLt; omega) else regs

/-- `x[i]` (spec/10_state.md R21). -/
def readReg (s : State) (i : RegIdx) : Word := readRegs s.regs i

/-- `x[i] <- v` (spec/10_state.md R22). -/
def writeReg (s : State) (i : RegIdx) (v : Word) : State := { s with regs := writeRegs s.regs i v }

/-- `s[i]` (spec/10_state.md R25). -/
def readStatus (s : State) (i : StatIdx) : Bool := s.status[i.toNat]'i.isLt

/-- `s[i] <- b`; every index is writable (spec/10_state.md R25). -/
def writeStatus (s : State) (i : StatIdx) (b : Bool) : State :=
  { s with status := s.status.set i.toNat b i.isLt }

/-- `pc <- t` (spec/10_state.md R27). -/
def setPc (s : State) (t : Addr) : State := { s with pc := t }

/-- The default update `pc <- (pc + 1) mod 2^16` (spec/10_state.md R28). -/
def advance (s : State) : State := setPc s (s.pc + 1)

/-- `running <- false` (spec/10_state.md R29). -/
def stopRunning (s : State) : State := { s with running := false }

/-! ### RAM -/

/-- What an address that is not listed reads as: "All cells initialize to 0" (spec/10_state.md R36). -/
def unlistedWord : Word := 0

/-- The word listed at an address, or the unlisted word. -/
def Memory.readCell : Memory → Nat → Word
  | [], _ => unlistedWord
  | (b, v) :: m, a => if b = a then v else Memory.readCell m a

/-- List `v` at `a`, replacing what was listed there, in rising order. -/
def Memory.putCell (a : Nat) (v : Word) : Memory → Memory
  | [] => [(a, v)]
  | (b, x) :: m =>
    if a < b then (a, v) :: (b, x) :: m
    else if a = b then (a, v) :: m
    else (b, x) :: Memory.putCell a v m

/-- List nothing at `a`. -/
def Memory.dropCell (a : Nat) : Memory → Memory
  | [] => []
  | (b, x) :: m => if a = b then m else (b, x) :: Memory.dropCell a m

/-- `RAM[a]` (spec/20_memory.md R50). -/
def Memory.read (m : Memory) (a : Addr) : Word := Memory.readCell m a.toNat

/-- `RAM[a] := v` (spec/20_memory.md R50), keeping the canonical form. -/
def Memory.write (m : Memory) (a : Addr) (v : Word) : Memory :=
  if v = unlistedWord then Memory.dropCell a.toNat m else Memory.putCell a.toNat v m

/-- The canonical form: addresses strictly rising, below 65 536, and no entry that equals the unlisted word. -/
abbrev Memory.wf (m : Memory) : Prop :=
  m.Pairwise (fun p q => p.1 < q.1) ∧ ∀ p ∈ m, p.1 < 65536 ∧ p.2 ≠ unlistedWord

/-! ### The PLRU tree (spec/20_memory.md R59 to R61) -/

/-- `Touch`: rewrite each bit on the path to way `w` to point away from `w` (R60). -/
def touch (p : Plru) (w : WayIdx) : Plru :=
  let w2 := w.getLsbD 2
  let w1 := w.getLsbD 1
  let w0 := w.getLsbD 0
  { b0 := !w2
    b1 := if w2 then p.b1 else !w1
    b2 := if w2 then !w1 else p.b2
    b3 := if !w2 && !w1 then !w0 else p.b3
    b4 := if !w2 && w1 then !w0 else p.b4
    b5 := if w2 && !w1 then !w0 else p.b5
    b6 := if w2 && w1 then !w0 else p.b6 }

/-- `Victim`: follow the bits from the root to a leaf, valid or not (R61). -/
def victim (p : Plru) : WayIdx :=
  let w2 := p.b0
  let w1 := if w2 then p.b2 else p.b1
  let w0 := if w2 then (if w1 then p.b6 else p.b5) else (if w1 then p.b4 else p.b3)
  BitVec.ofBool w2 ++ BitVec.ofBool w1 ++ BitVec.ofBool w0

/-! ### The cache (spec/20_memory.md R57, R58) -/

/-- "top 5 bits of the 16-bit address pick the set" (R58). -/
def setIdxOf (a : Addr) : SetIdx := a.extractLsb' 11 5

/-- "bottom 11 bits are the tag" (R58). -/
def tagOf (a : Addr) : Tag := a.extractLsb' 0 11

/-- The address `set ++ tag` (R70). -/
def addrOf (st : SetIdx) (tg : Tag) : Addr := st ++ tg

/-- One set of the cache. -/
def cacheSet (s : State) (st : SetIdx) : CacheSet := s.cache[st.toNat]'st.isLt

/-- One way of a set. -/
def wayOf (c : CacheSet) (w : WayIdx) : Way := c.ways[w.toNat]'w.isLt

/-- Replace one set of the cache. -/
def setCacheSet (s : State) (st : SetIdx) (c : CacheSet) : State :=
  { s with cache := s.cache.set st.toNat c st.isLt }

/-- Replace one way of a set. -/
def setWay (c : CacheSet) (w : WayIdx) (y : Way) : CacheSet :=
  { c with ways := c.ways.set w.toNat y w.isLt }

/-- The eight ways. -/
def allWays : List WayIdx := [0, 1, 2, 3, 4, 5, 6, 7]

/-- The hit/miss detector: the way that is valid and has the tag (R62, R64). At most one has it in a state that meets
R71; where several had it, the lowest is taken (log entry 13). -/
def lookup (c : CacheSet) (tg : Tag) : Option WayIdx :=
  allWays.find? (fun w => (wayOf c w).valid && (wayOf c w).tag == tg)

/-- Update the PLRU bits of set `st` for an access to way `w` (R60). -/
def touchWay (s : State) (st : SetIdx) (w : WayIdx) : State :=
  setCacheSet s st { cacheSet s st with plru := touch (cacheSet s st).plru w }

/-- `valid := 1, tag := tg, value := v` in way `w` of set `st` (R62, R63). -/
def fillWay (s : State) (st : SetIdx) (w : WayIdx) (tg : Tag) (v : Word) : State :=
  setCacheSet s st (setWay (cacheSet s st) w { valid := true, tag := tg, value := v })

/-! ### Events -/

/-- `emit E`: append to the trace; the attached tracker observes it (spec/10_state.md R33;
spec/70_reset_and_hazards.md R297, R301). -/
def emit (s : State) (e : Event) : State :=
  { s with trace := s.trace ++ [e], tracker := observe s.tracker e }

/-- The kinds of a read (spec/20_memory.md R62). -/
inductive AccessKind where
  | fetch
  | data
  deriving DecidableEq, Repr

/-- `if kind = DATA: emit E` (spec/20_memory.md R62, R65). -/
def emitIfData (k : AccessKind) (s : State) (e : Event) : State :=
  match k with
  | .fetch => s
  | .data => emit s e

/-! ### The memory primitives -/

/-- `MemRead(addr, 32, kind)` (spec/20_memory.md R62): the word read and the state after the access. -/
def memRead (k : AccessKind) (a : Addr) (s : State) : Word × State :=
  match lookup (cacheSet s (setIdxOf a)) (tagOf a) with
  | some w =>
    ((wayOf (cacheSet s (setIdxOf a)) w).value, touchWay (emitIfData k s (.hit a)) (setIdxOf a) w)
  | none =>
    let w := victim (cacheSet s (setIdxOf a)).plru
    let v := s.ram.read a
    (v, touchWay (emit (fillWay (emitIfData k s (.miss a)) (setIdxOf a) w (tagOf a) v) (.writeCache (setIdxOf a) w))
      (setIdxOf a) w)

/-- `RAM[addr] := v` (spec/20_memory.md R63). -/
def writeRam (s : State) (a : Addr) (v : Word) : State := { s with ram := s.ram.write a v }

/-- `MemWrite(addr, 32, v)` (spec/20_memory.md R63): write-through and write-allocate. On a hit the way keeps its
`valid` and `tag`, on a miss the victim takes the address; both end with the way `(1, tg, v)`. -/
def memWrite (a : Addr) (v : Word) (s : State) : State :=
  match lookup (cacheSet s (setIdxOf a)) (tagOf a) with
  | some w =>
    touchWay (emit (writeRam (fillWay (emit s (.hit a)) (setIdxOf a) w (tagOf a) v) a v) (.writeCache (setIdxOf a) w))
      (setIdxOf a) w
  | none =>
    let w := victim (cacheSet s (setIdxOf a)).plru
    touchWay (emit (writeRam (fillWay (emit s (.miss a)) (setIdxOf a) w (tagOf a) v) a v) (.writeCache (setIdxOf a) w))
      (setIdxOf a) w

/-- The fetch of a step: `emit FETCH(pc); iw := MemRead(pc, 32, FETCH)` (spec/40_step_nop_halt.md R130). -/
def fetch (s : State) : Word × State := memRead .fetch s.pc (emit s (.fetch s.pc))

/-! ### The one exception -/

/-- Take `BadInstruction(pc, iw)` (spec/60_exceptions.md R253): latch the error and stop; `pc` and everything else are
as the fetch left them. There is no return from it: only reset clears it (R255). -/
def raiseBadInstruction (s : State) (iw : Word) : State :=
  { s with fault := some { pc := s.pc, iw := iw }, running := false }

/-- Why a core whose run has ended takes no step (spec/40_step_nop_halt.md R132; log entry 7). -/
def stopReason (s : State) : Fault :=
  match s.fault with
  | none => .halted
  | some e => .stoppedByBadInstruction e

/-! ### Placing a word from outside -/

/-- Replace the word at `a` in RAM and in the way that holds `a`, if one does; no event, no PLRU update. It is no
operation of the hardware: `State.withFetchWord` uses it to stand for a loaded program (log entry 9). -/
def placeWord (s : State) (a : Addr) (v : Word) : State :=
  match lookup (cacheSet s (setIdxOf a)) (tagOf a) with
  | some w => writeRam (fillWay s (setIdxOf a) w (tagOf a) v) a v
  | none => writeRam s a v

end Sys2Proof.Machine
end

