-- ==== Sys2Proof/Machine/Alu.lean ====
section
/-! DEFINITION. ADD, SUB, LSHIFT and RSHIFT (spec/41_alu.md). -/

namespace Sys2Proof.Machine

/-- ADD's result, modulo 2^32 (R151). -/
def aluAdd (a b : Word) : Word := a + b

/-- SUB's result, modulo 2^32 (R152). -/
def aluSub (a b : Word) : Word := a - b

/-- LSHIFT's result: shift by `b mod 32`, truncated to 32 bits (R153). -/
def aluLshift (a b : Word) : Word := a <<< (b.toNat % 32)

/-- RSHIFT's result: logical shift by `b mod 32` (R154). -/
def aluRshift (a b : Word) : Word := a >>> (b.toNat % 32)

/-- The common shape (R150): read both sources, write `x[rd]`, then the default pc update. -/
def aluInto (f : Word → Word → Word) (rd ra rb : RegIdx) (s : State) : State :=
  advance (writeReg s rd (f (readReg s ra) (readReg s rb)))

/-- ADD (R151). -/
def execAdd (rd ra rb : RegIdx) (s : State) : Host.Outcome State Fault Refusal := .next (aluInto aluAdd rd ra rb s)

/-- SUB (R152). -/
def execSub (rd ra rb : RegIdx) (s : State) : Host.Outcome State Fault Refusal := .next (aluInto aluSub rd ra rb s)

/-- LSHIFT (R153). -/
def execLshift (rd ra rb : RegIdx) (s : State) : Host.Outcome State Fault Refusal :=
  .next (aluInto aluLshift rd ra rb s)

/-- RSHIFT (R154). -/
def execRshift (rd ra rb : RegIdx) (s : State) : Host.Outcome State Fault Refusal :=
  .next (aluInto aluRshift rd ra rb s)

end Sys2Proof.Machine
end

