-- ==== Sys2Proof/Machine/Flags.lean ====
section
/-! DEFINITION. The status-bit computations: the three compares of unsigned 32-bit numbers (spec/42_compare.md R170 to
R173). They are the only writers of a status bit (spec/10_state.md R26). -/

namespace Sys2Proof.Machine

/-- COMP's relation (R171). -/
def relEqual (a b : Word) : Bool := a == b

/-- COMPGRT's relation, unsigned (R172). -/
def relGreater (a b : Word) : Bool := decide (b.toNat < a.toNat)

/-- COMPLST's relation, unsigned (R173). -/
def relLess (a b : Word) : Bool := decide (a.toNat < b.toNat)

/-- A compare: write the one bit `s[sd]`, then the default pc update (R170). -/
def compareInto (rel : Word → Word → Bool) (sd : StatIdx) (ra rb : RegIdx) (s : State) : State :=
  advance (writeStatus s sd (rel (readReg s ra) (readReg s rb)))

end Sys2Proof.Machine
end

