-- ==== Sys2Proof/Machine/Compare.lean ====
section
/-! DEFINITION. COMP, COMPGRT and COMPLST (spec/42_compare.md). -/

namespace Sys2Proof.Machine

/-- COMP (R171). -/
def execComp (sd : StatIdx) (ra rb : RegIdx) (s : State) : Host.Outcome State Fault Refusal :=
  .next (compareInto relEqual sd ra rb s)

/-- COMPGRT (R172). -/
def execCompgrt (sd : StatIdx) (ra rb : RegIdx) (s : State) : Host.Outcome State Fault Refusal :=
  .next (compareInto relGreater sd ra rb s)

/-- COMPLST (R173). -/
def execComplst (sd : StatIdx) (ra rb : RegIdx) (s : State) : Host.Outcome State Fault Refusal :=
  .next (compareInto relLess sd ra rb s)

end Sys2Proof.Machine
end

