-- ==== Sys2Proof/Machine/Control.lean ====
section
/-! DEFINITION. NOP and HALT (spec/40_step_nop_halt.md). -/

namespace Sys2Proof.Machine

/-- NOP: "No effect" (R133). -/
def execNop (s : State) : Host.Outcome State Fault Refusal := .next (advance s)

/-- HALT: "Sets running = false", and pc takes the default update (R134). -/
def execHalt (s : State) : Host.Outcome State Fault Refusal := .next (advance (stopRunning s))

end Sys2Proof.Machine
end

