-- ==== Sys2Proof/Syntax.lean ====
section
/-! DEFINITION. The instructions of the RISCMachine ISA, one constructor per row of the opcode map
(spec/30_encoding.md R108). Bits the hardware ignores (R104, R111) are no operands and are not kept (log entry 6). -/

namespace Sys2Proof

/-- The transient flag register F of a LOAD or STORE (spec/30_encoding.md R106). -/
structure Flags where
  /-- Transfer one 16-bit half (else the whole word). -/
  hlf     : Bool
  /-- Take the high half of the source (else the low half). -/
  fromSig : Bool
  /-- Put it in the high half of the destination (else the low half). -/
  toSig   : Bool
  /-- Zero the other half of the destination (else preserve it). -/
  ow      : Bool
  /-- The source is the current instruction word. -/
  im      : Bool
  deriving DecidableEq, Repr

/-- The 13 instructions, operands in the order of the spec's notation (spec/30_encoding.md R114). -/
inductive Instr where
  | nop
  | halt
  | add (rd ra rb : RegIdx)
  | sub (rd ra rb : RegIdx)
  | lshift (rd ra rb : RegIdx)
  | rshift (rd ra rb : RegIdx)
  | comp (sd : StatIdx) (ra rb : RegIdx)
  | compgrt (sd : StatIdx) (ra rb : RegIdx)
  | complst (sd : StatIdx) (ra rb : RegIdx)
  | load (rA : RegIdx) (f : Flags) (data : Addr)
  | store (rA : RegIdx) (f : Flags) (data : Addr)
  /-- `onHigh` is the value of the status bit the jump is taken on, `dec` subtracts the displacement (R107). -/
  | jmp (si : StatIdx) (onHigh dec : Bool) (disp : BitVec 16)
  | print (ra rb : RegIdx) (data : Addr)
  deriving DecidableEq, Repr

end Sys2Proof
end

