-- ==== Sys2Proof/Decode.lean ====
section
/-! DEFINITION. Encoding and decoding (spec/30_encoding.md): the one field layout, the opcode map, decode as a total
function that refuses the 51 undefined opcodes, and the encoder. -/

namespace Sys2Proof

/-- The four fields of an instruction word (R101). -/
structure Fields where
  op   : BitVec 6
  arg1 : BitVec 5
  arg2 : BitVec 5
  data : BitVec 16
  deriving DecidableEq, Repr

/-- Field extraction: `op = iw[5:0]`, `arg1 = iw[10:6]`, `arg2 = iw[15:11]`, `data = iw[31:16]` (R101). -/
def splitWord (iw : Word) : Fields :=
  { op := iw.extractLsb' 0 6, arg1 := iw.extractLsb' 6 5, arg2 := iw.extractLsb' 11 5, data := iw.extractLsb' 16 16 }

/-- The inverse, `data ++ arg2 ++ arg1 ++ op` (R101). -/
def joinFields (f : Fields) : Word := f.data ++ f.arg2 ++ f.arg1 ++ f.op

/-- `data5`: "the low 5 bits of `data`" (R101); the other eleven are reserved and ignored (R104). -/
def data5 (data : BitVec 16) : BitVec 5 := data.extractLsb' 0 5

/-- A `data` field that holds `r` in its low 5 bits, its reserved bits 0 as an assembler should write them (R104). -/
def fromData5 (r : BitVec 5) : BitVec 16 := (0#11) ++ r

/-- The flag register F read from `arg2` (R106). -/
def flagsOf (arg2 : BitVec 5) : Flags :=
  { hlf := arg2.getLsbD 0, fromSig := arg2.getLsbD 1, toSig := arg2.getLsbD 2, ow := arg2.getLsbD 3,
    im := arg2.getLsbD 4 }

/-- The `arg2` field that holds the flags `f` (R106). -/
def flagsBits (f : Flags) : BitVec 5 :=
  BitVec.ofBool f.im ++ BitVec.ofBool f.ow ++ BitVec.ofBool f.toSig ++ BitVec.ofBool f.fromSig ++ BitVec.ofBool f.hlf

/-- The `arg2` field of a JMP: bit 0 is ON_HIGH, bit 1 is DEC, bits 4:2 are ignored and written 0 (R107). -/
def jmpBits (onHigh dec : Bool) : BitVec 5 := (0#3) ++ BitVec.ofBool dec ++ BitVec.ofBool onHigh

/-- The decode procedure on the fields (R102, R109): the opcode alone selects the instruction. -/
def decodeFields (f : Fields) : Option Instr :=
  match f.op.toNat with
  | 0 => some .nop
  | 1 => some .halt
  | 9 => some (.add (data5 f.data) f.arg1 f.arg2)
  | 10 => some (.sub (data5 f.data) f.arg1 f.arg2)
  | 11 => some (.lshift (data5 f.data) f.arg1 f.arg2)
  | 12 => some (.rshift (data5 f.data) f.arg1 f.arg2)
  | 16 => some (.comp (data5 f.data) f.arg1 f.arg2)
  | 18 => some (.compgrt (data5 f.data) f.arg1 f.arg2)
  | 19 => some (.complst (data5 f.data) f.arg1 f.arg2)
  | 25 => some (.load f.arg1 (flagsOf f.arg2) f.data)
  | 26 => some (.store f.arg1 (flagsOf f.arg2) f.data)
  | 33 => some (.jmp f.arg1 (f.arg2.getLsbD 0) (f.arg2.getLsbD 1) f.data)
  | 63 => some (.print f.arg1 f.arg2 f.data)
  | _ => none

/-- Decode a word; `none` is an illegal opcode (R109, R110). -/
def decode (iw : Word) : Option Instr := decodeFields (splitWord iw)

/-- The fields of an instruction, ignored bits 0 (R102, R108, R114). -/
def encodeFields : Instr → Fields
  | .nop => ⟨0, 0, 0, 0⟩
  | .halt => ⟨1, 0, 0, 0⟩
  | .add rd ra rb => ⟨9, ra, rb, fromData5 rd⟩
  | .sub rd ra rb => ⟨10, ra, rb, fromData5 rd⟩
  | .lshift rd ra rb => ⟨11, ra, rb, fromData5 rd⟩
  | .rshift rd ra rb => ⟨12, ra, rb, fromData5 rd⟩
  | .comp sd ra rb => ⟨16, ra, rb, fromData5 sd⟩
  | .compgrt sd ra rb => ⟨18, ra, rb, fromData5 sd⟩
  | .complst sd ra rb => ⟨19, ra, rb, fromData5 sd⟩
  | .load rA f data => ⟨25, rA, flagsBits f, data⟩
  | .store rA f data => ⟨26, rA, flagsBits f, data⟩
  | .jmp si onHigh dec disp => ⟨33, si, jmpBits onHigh dec, disp⟩
  | .print ra rb data => ⟨63, ra, rb, data⟩

/-- The word of an instruction (R101). -/
def encode (i : Instr) : Word := joinFields (encodeFields i)

/-- The instruction the decoder reads from a row of the opcode table: `w`'s low `nbits` bits, every bit above them 0.
A word of memory is a number, so the hardware's storage of it is the number itself (spec/20_memory.md R54). -/
def decodeTableWord (nbits w : Nat) : Option Instr := decode (BitVec.ofNat 32 (w % 2 ^ nbits))

end Sys2Proof
end

