-- ==== Sys2Proof/Machine/Operands.lean ====
section
/-! DEFINITION. The operand forms: halves and half-word splicing, the source word and the old word of LOAD and STORE
(spec/43_load_store.md R190 to R196), the condition and the target of JMP (spec/44_jump.md R221). -/

namespace Sys2Proof.Machine

/-- The high half `v[31:16]` (spec/00_scope.md R9). -/
def highHalf (v : Word) : Half := v.extractLsb' 16 16

/-- The low half `v[15:0]` (spec/00_scope.md R9). -/
def lowHalf (v : Word) : Half := v.extractLsb' 0 16

/-- `hi ++ lo`. -/
def joinHalves (hi lo : Half) : Word := hi ++ lo

/-- `Splice(src, old, F)` (spec/43_load_store.md R191). -/
def splice (src old : Word) (f : Flags) : Word :=
  if f.hlf then
    let h := if f.fromSig then highHalf src else lowHalf src
    let keep := if f.ow then 0 else old
    if f.toSig then joinHalves h (lowHalf keep) else joinHalves (highHalf keep) h
  else src

/-- LOAD's source (spec/43_load_store.md R192): with `IM = 1` the instruction word `iw` and no access, else a data
read of `data`. -/
def loadSource (iw : Word) (f : Flags) (data : Addr) (s : State) : Word × State :=
  if f.im then (iw, s) else memRead .data data s

/-- STORE's source (spec/43_load_store.md R196): with `IM = 1` the instruction word, else `x[arg1]`. -/
def storeSource (iw : Word) (f : Flags) (rA : RegIdx) (s : State) : Word :=
  if f.im then iw else readReg s rA

/-- STORE's old word (spec/43_load_store.md R196): a data read of `data` only when `HLF = 1` and `OW = 0`. -/
def storeOld (f : Flags) (data : Addr) (s : State) : Word × State :=
  if f.hlf && !f.ow then memRead .data data s else (0, s)

/-- JMP is taken when `s[arg1] = iw[11]` (spec/44_jump.md R221, R222). -/
def jmpTaken (si : StatIdx) (onHigh : Bool) (s : State) : Bool := readStatus s si == onHigh

/-- The target of a taken JMP, from the address of the JMP itself (spec/44_jump.md R221). -/
def jmpTarget (dec : Bool) (disp : BitVec 16) (s : State) : Addr :=
  if dec then s.pc - disp else s.pc + disp

end Sys2Proof.Machine
end

