-- ==== Sys2Proof/Machine/Jump.lean ====
section
/-! DEFINITION. JMP (spec/44_jump.md). -/

namespace Sys2Proof.Machine

/-- JMP (R221): to the target when the condition holds, else the default update. -/
def execJmp (si : StatIdx) (onHigh dec : Bool) (disp : BitVec 16) (s : State) : Host.Outcome State Fault Refusal :=
  .next (if jmpTaken si onHigh s then setPc s (jmpTarget dec disp s) else advance s)

end Sys2Proof.Machine
end

