-- ==== Sys2Proof/Machine/LoadStore.lean ====
section
/-! DEFINITION. LOAD and STORE (spec/43_load_store.md). With `IM = 1` the source is the fetched word; a LOAD or STORE
has no ignored bits, so that word is `encode` of the instruction (DEDUCED, log entry 5). -/

namespace Sys2Proof.Machine

/-- LOAD (R192): the access, if any, happens whether or not the register write is discarded. -/
def execLoad (rA : RegIdx) (f : Flags) (data : Addr) (s : State) : Host.Outcome State Fault Refusal :=
  let r := loadSource (encode (.load rA f data)) f data s
  .next (advance (writeReg r.2 rA (splice r.1 (readReg r.2 rA) f)))

/-- STORE (R196): one data write, preceded by a data read when a half is preserved. -/
def execStore (rA : RegIdx) (f : Flags) (data : Addr) (s : State) : Host.Outcome State Fault Refusal :=
  let src := storeSource (encode (.store rA f data)) f rA s
  let r := storeOld f data s
  .next (advance (memWrite data (splice src r.1 f) r.2))

end Sys2Proof.Machine
end

