-- ==== Sys2Proof/Machine/Print.lean ====
section
/-! DEFINITION. PRINT, the output channel (spec/45_print.md). Opcode 63 is PRINT and nothing else: there is no DEBUG
instruction (R242). -/

namespace Sys2Proof.Machine

/-- PRINT (R241): a data read of `data`, then the event of the two registers and the word. -/
def execPrint (ra rb : RegIdx) (data : Addr) (s : State) : Host.Outcome State Fault Refusal :=
  let r := memRead .data data s
  .next (advance (emit r.2 (.print (readReg r.2 ra) (readReg r.2 rb) r.1)))

end Sys2Proof.Machine
end

