-- ==== Sys2Proof/Machine/Dispatch.lean ====
section
/-! DEFINITION. Dispatch (spec/40_step_nop_halt.md R130): one arm per instruction. -/

namespace Sys2Proof.Machine

/-- The meaning of one instruction, from the state its fetch left; each meaning replaces `pc` itself. -/
def exec (i : Instr) (s : State) : Host.Outcome State Fault Refusal :=
  match i with
  | .nop => Sys2Proof.Machine.execNop s
  | .halt => Sys2Proof.Machine.execHalt s
  | .add rd ra rb => Sys2Proof.Machine.execAdd rd ra rb s
  | .sub rd ra rb => Sys2Proof.Machine.execSub rd ra rb s
  | .lshift rd ra rb => Sys2Proof.Machine.execLshift rd ra rb s
  | .rshift rd ra rb => Sys2Proof.Machine.execRshift rd ra rb s
  | .comp sd ra rb => Sys2Proof.Machine.execComp sd ra rb s
  | .compgrt sd ra rb => Sys2Proof.Machine.execCompgrt sd ra rb s
  | .complst sd ra rb => Sys2Proof.Machine.execComplst sd ra rb s
  | .load rA f data => Sys2Proof.Machine.execLoad rA f data s
  | .store rA f data => Sys2Proof.Machine.execStore rA f data s
  | .jmp si onHigh dec disp => Sys2Proof.Machine.execJmp si onHigh dec disp s
  | .print ra rb data => Sys2Proof.Machine.execPrint ra rb data s

end Sys2Proof.Machine
end

