-- ==== Sys2Proof/Machine/Step.lean ====
section
/-! DEFINITION. The step (spec/40_step_nop_halt.md R130) and the placing of a word where it fetches. -/

namespace Sys2Proof.Machine

/-- One step: enabled only while running; fetch, decode, execute, or take BadInstruction on an illegal opcode. -/
def step (s : State) : Host.Outcome State Fault Refusal :=
  if s.running then
    match decode (fetch s).1 with
    | some i => exec i (fetch s).2
    | none => .next (raiseBadInstruction (fetch s).2 (fetch s).1)
  else .fault (stopReason s)

/-- `s` with the word `w` (its low `nbits` bits) where the next step fetches, in RAM and in the cache's copy of it, and
with the step enabled (running, no error latched): what a host's load and reset stand for (log entry 9). -/
def State.withFetchWord (s : State) (nbits w : Nat) : State :=
  { placeWord s s.pc (BitVec.ofNat 32 (w % 2 ^ nbits)) with running := true, fault := none }

end Sys2Proof.Machine
end

