-- ==== Sys2Proof/Machine/Flat.lean ====
section
/-! DEFINITION. The architectural machine over plain RAM, without cache, events or tracker: the first of the "two
layers" of spec/20_memory.md R73, with `MemRead` returning `RAM[addr]` and `MemWrite` assigning it. The obligations
compare Step.lean's machine with it. -/

namespace Sys2Proof.Machine

/-- The architectural part of the state (R73): everything but the cache, the trace and the tracker. -/
structure FlatState where
  regs    : Vector Word 30
  status  : Vector Bool 32
  pc      : Addr
  running : Bool
  fault   : Option BadInstruction
  ram     : Memory
  deriving DecidableEq, Repr

/-- The architectural part of a state. -/
def flatOf (s : State) : FlatState :=
  { regs := s.regs, status := s.status, pc := s.pc, running := s.running, fault := s.fault, ram := s.ram }

/-- An ALU instruction over plain RAM (spec/41_alu.md R150). -/
def flatAlu (f : Word → Word → Word) (rd ra rb : RegIdx) (s : FlatState) : FlatState :=
  { s with regs := writeRegs s.regs rd (f (readRegs s.regs ra) (readRegs s.regs rb)), pc := s.pc + 1 }

/-- A compare over plain RAM (spec/42_compare.md R170). -/
def flatCompare (rel : Word → Word → Bool) (sd : StatIdx) (ra rb : RegIdx) (s : FlatState) : FlatState :=
  { s with status := s.status.set sd.toNat (rel (readRegs s.regs ra) (readRegs s.regs rb)) sd.isLt, pc := s.pc + 1 }

/-- One instruction whose word is `iw`, over plain RAM (spec/40_step_nop_halt.md R130). -/
def flatExec (i : Instr) (iw : Word) (s : FlatState) : FlatState :=
  match i with
  | .nop => { s with pc := s.pc + 1 }
  | .halt => { s with running := false, pc := s.pc + 1 }
  | .add rd ra rb => flatAlu (fun a b => a + b) rd ra rb s
  | .sub rd ra rb => flatAlu (fun a b => a - b) rd ra rb s
  | .lshift rd ra rb => flatAlu (fun a b => a <<< (b.toNat % 32)) rd ra rb s
  | .rshift rd ra rb => flatAlu (fun a b => a >>> (b.toNat % 32)) rd ra rb s
  | .comp sd ra rb => flatCompare (fun a b => a == b) sd ra rb s
  | .compgrt sd ra rb => flatCompare (fun a b => decide (a.toNat > b.toNat)) sd ra rb s
  | .complst sd ra rb => flatCompare (fun a b => decide (a.toNat < b.toNat)) sd ra rb s
  | .load rA f data =>
    { s with
      regs := writeRegs s.regs rA (splice (if f.im then iw else s.ram.read data) (readRegs s.regs rA) f)
      pc := s.pc + 1 }
  | .store rA f data =>
    { s with
      ram := s.ram.write data (splice (if f.im then iw else readRegs s.regs rA) (s.ram.read data) f)
      pc := s.pc + 1 }
  | .jmp si onHigh dec disp =>
    { s with
      pc := if s.status[si.toNat]'si.isLt = onHigh then (if dec then s.pc - disp else s.pc + disp) else s.pc + 1 }
  | .print _ _ _ => { s with pc := s.pc + 1 }

/-- One step over plain RAM (spec/40_step_nop_halt.md R130, spec/60_exceptions.md R253). -/
def flatStep (s : FlatState) : Host.Outcome FlatState Fault Refusal :=
  if s.running then
    match decode (s.ram.read s.pc) with
    | some i => .next (flatExec i (s.ram.read s.pc) s)
    | none => .next { s with fault := some { pc := s.pc, iw := s.ram.read s.pc }, running := false }
  else
    match s.fault with
    | none => .fault .halted
    | some e => .fault (.stoppedByBadInstruction e)

end Sys2Proof.Machine
end

