-- ==== Sys2Proof/WellFormed.lean ====
section
/-! DEFINITION. Well-formedness. The operand types of Instr are exactly as wide as the fields of the word, and every
value of every field is legal (spec/30_encoding.md R103, R105, R106; spec/20_memory.md R51), so each term of Instr is
well formed and there is nothing to check on it. Two things can be ill formed: a word, whose opcode may be one of the
51 undefined ones, and a program image, which may be too long. -/

namespace Sys2Proof

/-- The 13 defined values of the opcode field, as spec/60_exceptions.md R251 lists them. -/
def legalOpcodes : List Nat := [0, 1, 9, 10, 11, 12, 16, 18, 19, 25, 26, 33, 63]

/-- A word is an instruction iff its low six bits are a defined opcode: "No other bit can make an instruction
illegal" (spec/30_encoding.md R109). -/
def wordWellFormed (w : Word) : Bool := legalOpcodes.contains (w.toNat % 64)

/-- An image is at most the 65 536 words of the memory (spec/70_reset_and_hazards.md R280). -/
def imageWellFormed (image : List Word) : Bool := image.length ≤ 65536

end Sys2Proof
end

