-- ==== Sys2Proof/Machine/HostOps.lean ====
section
/-! DEFINITION. The host's operations (spec/70_reset_and_hazards.md R280 to R282; spec/40_step_nop_halt.md R131, R132;
spec/60_exceptions.md R263). `observe` is the reading of a State's fields. -/

namespace Sys2Proof.Machine

/-- `reset` (R281): every field at its reset value, "RAM unchanged". -/
def applyReset (s : State) : State := { State.reset with ram := s.ram }

/-- `power_on` (R280): every RAM cell 0, then the effect of `reset`. -/
def powerOn (s : State) : State := applyReset { s with ram := [] }

/-- Whether some way of the cache is valid; false is "the cache is entirely invalid" (R280). -/
def anyWayValid (s : State) : Bool :=
  s.cache.toList.any (fun c => c.ways.toList.any (fun y => y.valid))

/-- `RAM[base + i] := image[i]` (R280). -/
def Memory.loadFrom (base : Nat) : List Word → Memory → Memory
  | [], m => m
  | w :: ws, m => Memory.loadFrom (base + 1) ws (m.write (BitVec.ofNat 16 base) w)

/-- `load(image)` (R280; spec/20_memory.md R78): into RAM from address 0, past the cache and without an event. It is
refused while a way is valid. A step always leaves a way valid, so "no step has run" is the same condition
(DEDUCED, log entry 10). -/
def load (image : List Word) (s : State) : Host.Outcome State Fault Refusal :=
  if anyWayValid s then .refused .loadWhileCacheValid
  else if imageWellFormed image then .next { s with ram := Memory.loadFrom 0 image s.ram }
  else .refused .imageTooLong

/-- `run(fuel)`: `while running: step()`, at most `fuel` steps (spec/40_step_nop_halt.md R131; spec/00_scope.md R8). -/
def run : Nat → State → State
  | 0, s => s
  | fuel + 1, s =>
    match step s with
    | .next s' => run fuel s'
    | .fault _ => s
    | .refused _ => s

/-- Boot (R282): power_on, then load, then run. -/
def boot (image : List Word) (fuel : Nat) (s : State) : Host.Outcome State Fault Refusal :=
  match load image (powerOn s) with
  | .next s' => .next (run fuel s')
  | .fault r => .fault r
  | .refused r => .refused r

/-- How a run stands, as the host reads it (spec/40_step_nop_halt.md R132; spec/60_exceptions.md R263). -/
inductive RunEnd where
  /-- `running` is still true. -/
  | stillRunning
  /-- A HALT executed. -/
  | normal
  /-- The word `e.iw` at address `e.pc` had no defined opcode: a failed run. -/
  | byFault (e : BadInstruction)
  deriving DecidableEq, Repr

/-- The host observes `running` and then `fault` (R263). -/
def runEnd (s : State) : RunEnd :=
  if s.running then .stillRunning
  else match s.fault with
    | none => .normal
    | some e => .byFault e

/-- The words that PRINT sent to the printer hook, oldest first (spec/45_print.md R240). -/
def printed (s : State) : List (Word × Word × Word) :=
  s.trace.filterMap (fun
    | .print a b m => some (a, b, m)
    | _ => none)

end Sys2Proof.Machine
end

