-- ==== Sys2Proof/Safety.lean ====
section
/-! DEFINITION. What counts as a good state and a good end of a run, and the words the statements use: the invariants
of spec/20_memory.md R70 and R71, which registers and bits an instruction may touch (spec/10_state.md R24, R26), which
bits of its word are not ignored (spec/30_encoding.md R111), and what "unchanged" means. -/

namespace Sys2Proof.Machine

/-! ### Invariants -/

/-- Coherence (R70): a valid way holds RAM's word at its address. -/
def Coherent (s : State) : Prop :=
  ∀ st w, (wayOf (cacheSet s st) w).valid = true →
    (wayOf (cacheSet s st) w).value = s.ram.read (addrOf st (wayOf (cacheSet s st) w).tag)

/-- Uniqueness (R71): within a set no two valid ways hold the same tag. -/
def UniqueTags (s : State) : Prop :=
  ∀ st w w', (wayOf (cacheSet s st) w).valid = true → (wayOf (cacheSet s st) w').valid = true →
    (wayOf (cacheSet s st) w).tag = (wayOf (cacheSet s st) w').tag → w = w'

/-- A latched error means a stopped core (spec/40_step_nop_halt.md R130: running, "and therefore `fault = none`"). -/
def LatchStops (s : State) : Prop := s.fault ≠ none → s.running = false

/-- Every way that holds live data is in the tracker's set (spec/70_reset_and_hazards.md R296). -/
def LiveWaysRecorded (s : State) : Prop :=
  ∀ st w, (wayOf (cacheSet s st) w).valid = true → (st, w) ∈ s.tracker.uniqueCacheLocations

/-- The invariant of the machine: every step keeps it, and reset and load establish it. -/
structure Inv (s : State) : Prop where
  memory   : s.ram.wf
  coherent : Coherent s
  unique   : UniqueTags s
  latch    : LatchStops s
  sets     : s.tracker.wf
  live     : LiveWaysRecorded s

/-- The tracker is the fold of the events emitted since it was attached (spec/70_reset_and_hazards.md R295, R301). -/
def TrackerFollowsTrace (s : State) : Prop := s.tracker = trackerOf s.trace

/-! ### Safe runs -/

/-- A run that ended normally: HALT executed (spec/40_step_nop_halt.md R132). -/
def GoodEnd (s : State) : Prop := runEnd s = .normal

/-- A failed run, never a normal end (spec/60_exceptions.md R255). -/
def FailedRun (s : State) : Prop := ∃ e, runEnd s = .byFault e

/-! ### What an instruction may touch -/

/-- The data register an instruction writes (spec/10_state.md R24). -/
def regDest : Instr → Option RegIdx
  | .nop => none
  | .halt => none
  | .add rd _ _ => some rd
  | .sub rd _ _ => some rd
  | .lshift rd _ _ => some rd
  | .rshift rd _ _ => some rd
  | .comp _ _ _ => none
  | .compgrt _ _ _ => none
  | .complst _ _ _ => none
  | .load rA _ _ => some rA
  | .store _ _ _ => none
  | .jmp _ _ _ _ => none
  | .print _ _ _ => none

/-- The data registers an instruction reads (spec/10_state.md R24). -/
def regReads : Instr → List RegIdx
  | .nop => []
  | .halt => []
  | .add _ ra rb => [ra, rb]
  | .sub _ ra rb => [ra, rb]
  | .lshift _ ra rb => [ra, rb]
  | .rshift _ ra rb => [ra, rb]
  | .comp _ ra rb => [ra, rb]
  | .compgrt _ ra rb => [ra, rb]
  | .complst _ ra rb => [ra, rb]
  | .load rA f _ => if f.hlf && !f.ow then [rA] else []
  | .store rA f _ => if f.im then [] else [rA]
  | .jmp _ _ _ _ => []
  | .print ra rb _ => [ra, rb]

/-- The status bit an instruction writes (spec/10_state.md R26). -/
def statusDest : Instr → Option StatIdx
  | .nop => none
  | .halt => none
  | .add _ _ _ => none
  | .sub _ _ _ => none
  | .lshift _ _ _ => none
  | .rshift _ _ _ => none
  | .comp sd _ _ => some sd
  | .compgrt sd _ _ => some sd
  | .complst sd _ _ => some sd
  | .load _ _ _ => none
  | .store _ _ _ => none
  | .jmp _ _ _ _ => none
  | .print _ _ _ => none

/-- The status bit an instruction reads (spec/10_state.md R26). -/
def statusRead : Instr → Option StatIdx
  | .nop => none
  | .halt => none
  | .add _ _ _ => none
  | .sub _ _ _ => none
  | .lshift _ _ _ => none
  | .rshift _ _ _ => none
  | .comp _ _ _ => none
  | .compgrt _ _ _ => none
  | .complst _ _ _ => none
  | .load _ _ _ => none
  | .store _ _ _ => none
  | .jmp si _ _ _ => some si
  | .print _ _ _ => none

/-- The bits of an instruction's word that are not ignored (spec/30_encoding.md R111). -/
def usedBits : Instr → Word
  | .nop => 0x0000003F
  | .halt => 0x0000003F
  | .add _ _ _ => 0x001FFFFF
  | .sub _ _ _ => 0x001FFFFF
  | .lshift _ _ _ => 0x001FFFFF
  | .rshift _ _ _ => 0x001FFFFF
  | .comp _ _ _ => 0x001FFFFF
  | .compgrt _ _ _ => 0x001FFFFF
  | .complst _ _ _ => 0x001FFFFF
  | .load _ _ _ => 0xFFFFFFFF
  | .store _ _ _ => 0xFFFFFFFF
  | .jmp _ _ _ _ => 0xFFFF1FFF
  | .print _ _ _ => 0xFFFFFFFF

/-! ### What "unchanged" means -/

/-- Every word of RAM reads as before. -/
def SameMemory (s t : State) : Prop := ∀ a, t.ram.read a = s.ram.read a

/-- Every word of RAM but the one at `a` reads as before. -/
def SameMemoryBut (a : Addr) (s t : State) : Prop := ∀ b, b ≠ a → t.ram.read b = s.ram.read b

/-- Every data register reads as before. -/
def SameRegs (s t : State) : Prop := ∀ r, readReg t r = readReg s r

/-- Data register `rd` has the written value `v`, unless it is hardwired; every other reads as before. -/
def RegWritten (rd : RegIdx) (v : Word) (s t : State) : Prop :=
  ∀ r, readReg t r = if r = 0#5 then 0#32 else if r = 1#5 then 1#32 else if r = rd then v else readReg s r

/-- Every status bit reads as before. -/
def SameStatus (s t : State) : Prop := ∀ b, readStatus t b = readStatus s b

/-- Status bit `sd` has the value `v`; every other reads as before. -/
def StatusWritten (sd : StatIdx) (v : Bool) (s t : State) : Prop :=
  ∀ b, readStatus t b = if b = sd then v else readStatus s b

/-- The running flag and the fault latch are as before. -/
def SameControl (s t : State) : Prop := t.running = s.running ∧ t.fault = s.fault

/-- The cache, the trace and the tracker are as before: no memory access was made and no event emitted. -/
def NoAccess (s t : State) : Prop := t.cache = s.cache ∧ t.trace = s.trace ∧ t.tracker = s.tracker

/-- The whole effect of an ALU instruction whose result is `v` (spec/41_alu.md R150). -/
def AluEffect (rd : RegIdx) (v : Word) (s t : State) : Prop :=
  RegWritten rd v s t ∧ SameStatus s t ∧ SameMemory s t ∧ SameControl s t ∧ NoAccess s t ∧ t.pc = s.pc + 1

/-- The whole effect of a compare whose relation is `v` (spec/42_compare.md R170). -/
def CompareEffect (sd : StatIdx) (v : Bool) (s t : State) : Prop :=
  StatusWritten sd v s t ∧ SameRegs s t ∧ SameMemory s t ∧ SameControl s t ∧ NoAccess s t ∧ t.pc = s.pc + 1

/-- Only the cache, the trace and the tracker differ from `s`, and they are those of `u` (the state an access left). -/
def AccessOf (u t : State) : Prop := t.cache = u.cache ∧ t.trace = u.trace ∧ t.tracker = u.tracker

/-! ### Accesses and events of a step -/

/-- The way an access of `a` ends in (spec/20_memory.md R62, R63): the one that holds `a`, else the victim. -/
def accessWay (a : Addr) (s : State) : WayIdx :=
  match lookup (cacheSet s (setIdxOf a)) (tagOf a) with
  | some w => w
  | none => victim (cacheSet s (setIdxOf a)).plru

/-- Whether the word at `a` is in the cache (spec/20_memory.md R62: "A hit is any valid way with matching tag"). -/
def InCache (a : Addr) (s : State) : Prop :=
  ∃ w, (wayOf (cacheSet s (setIdxOf a)) w).valid = true ∧ (wayOf (cacheSet s (setIdxOf a)) w).tag = tagOf a

/-- The events of the fetch of a step (spec/20_memory.md R65, R66): FETCH, and WRITE_CACHE if it missed. -/
def fetchEvents (s : State) : List Event :=
  match lookup (cacheSet s (setIdxOf s.pc)) (tagOf s.pc) with
  | some _ => [.fetch s.pc]
  | none => [.fetch s.pc, .writeCache (setIdxOf s.pc) (victim (cacheSet s (setIdxOf s.pc)).plru)]

/-- The events of a data read of `a` (spec/20_memory.md R65, R66). -/
def readEvents (a : Addr) (s : State) : List Event :=
  match lookup (cacheSet s (setIdxOf a)) (tagOf a) with
  | some _ => [.hit a]
  | none => [.miss a, .writeCache (setIdxOf a) (victim (cacheSet s (setIdxOf a)).plru)]

/-- The events of a data write of `a` (spec/20_memory.md R65, R66). -/
def writeEvents (a : Addr) (s : State) : List Event :=
  match lookup (cacheSet s (setIdxOf a)) (tagOf a) with
  | some w => [.hit a, .writeCache (setIdxOf a) w]
  | none => [.miss a, .writeCache (setIdxOf a) (victim (cacheSet s (setIdxOf a)).plru)]

/-- The nanoseconds of a data access of `a` (spec/70_reset_and_hazards.md R297): 1 on a hit, 80 on a miss. -/
def accessCost (a : Addr) (s : State) : Nat :=
  match lookup (cacheSet s (setIdxOf a)) (tagOf a) with
  | some _ => 1
  | none => 80

/-- The events of an instruction after its fetch, from the state the fetch left (spec/20_memory.md R65, R66). -/
def dataEvents (i : Instr) (s : State) : List Event :=
  match i with
  | .nop => []
  | .halt => []
  | .add _ _ _ => []
  | .sub _ _ _ => []
  | .lshift _ _ _ => []
  | .rshift _ _ _ => []
  | .comp _ _ _ => []
  | .compgrt _ _ _ => []
  | .complst _ _ _ => []
  | .load _ f data => if f.im then [] else readEvents data s
  | .store _ f data =>
    if f.hlf && !f.ow then readEvents data s ++ [.hit data, .writeCache (setIdxOf data) (accessWay data s)]
    else writeEvents data s
  | .jmp _ _ _ _ => []
  | .print ra rb data => readEvents data s ++ [.print (readReg s ra) (readReg s rb) (memRead .data data s).1]

/-- The nanoseconds of an instruction, its fetch included, from the state the fetch left
(spec/70_reset_and_hazards.md R298). -/
def instrCost (i : Instr) (s : State) : Nat :=
  match i with
  | .nop => 1
  | .halt => 1
  | .add _ _ _ => 1
  | .sub _ _ _ => 1
  | .lshift _ _ _ => 1
  | .rshift _ _ _ => 1
  | .comp _ _ _ => 1
  | .compgrt _ _ _ => 1
  | .complst _ _ _ => 1
  | .load _ f data => if f.im then 1 else 1 + accessCost data s
  | .store _ f data => if f.hlf && !f.ow then 2 + accessCost data s else 1 + accessCost data s
  | .jmp _ _ _ _ => 1
  | .print _ _ data => 1 + accessCost data s

/-- The events of a step, in order (spec/20_memory.md R66). -/
def stepEvents (s : State) : List Event :=
  match decode (fetch s).1 with
  | none => fetchEvents s
  | some i => fetchEvents s ++ dataEvents i (fetch s).2

/-- The nanoseconds of a step (spec/70_reset_and_hazards.md R298); an illegal opcode costs its fetch. -/
def stepCost (s : State) : Nat :=
  match decode (fetch s).1 with
  | none => 1
  | some i => instrCost i (fetch s).2

/-- The nanoseconds an event costs (spec/70_reset_and_hazards.md R297). -/
def eventCost : Event → Nat
  | .fetch _ => 1
  | .hit _ => 1
  | .miss _ => 80
  | .writeCache _ _ => 0
  | .print _ _ _ => 0

/-- PC after an instruction executed at `s`, as a number (spec/10_state.md R28, spec/44_jump.md R221). -/
def pcAfter (i : Instr) (s : State) : Nat :=
  match i with
  | .nop => (s.pc.toNat + 1) % 65536
  | .halt => (s.pc.toNat + 1) % 65536
  | .add _ _ _ => (s.pc.toNat + 1) % 65536
  | .sub _ _ _ => (s.pc.toNat + 1) % 65536
  | .lshift _ _ _ => (s.pc.toNat + 1) % 65536
  | .rshift _ _ _ => (s.pc.toNat + 1) % 65536
  | .comp _ _ _ => (s.pc.toNat + 1) % 65536
  | .compgrt _ _ _ => (s.pc.toNat + 1) % 65536
  | .complst _ _ _ => (s.pc.toNat + 1) % 65536
  | .load _ _ _ => (s.pc.toNat + 1) % 65536
  | .store _ _ _ => (s.pc.toNat + 1) % 65536
  | .jmp si onHigh dec disp =>
    if readStatus s si = onHigh then
      (if dec then (s.pc.toNat + 65536 - disp.toNat) % 65536 else (s.pc.toNat + disp.toNat) % 65536)
    else (s.pc.toNat + 1) % 65536
  | .print _ _ _ => (s.pc.toNat + 1) % 65536

/-- A step that fetches the instruction `i` makes the fetch's access and no other: its events are FETCH and, if the
fetch missed, WRITE_CACHE, and it costs 1 ns (spec/20_memory.md R65, spec/70_reset_and_hazards.md R298). -/
def FetchOnly (i : Instr) : Prop :=
  ∀ s, s.running = true → decode (fetch s).1 = some i →
    ∃ t, step s = .next t ∧ t.trace = s.trace ++ fetchEvents s ∧
      t.tracker.cycles = addCycles s.tracker.cycles 1 ∧ t.cache = (fetch s).2.cache

end Sys2Proof.Machine
end

