-- ==== Sys2Proof/Certificates/Slice0/Obligations.lean ====
section
/-! DEFINITION. The statements for the provers. Each docstring names the rule of spec/ it formalises, or, where the
statement rests on a decision the spec marks as its own (spec/92_eei_decisions.md), that decision. -/

open Sys2Proof Sys2Proof.Machine

/-! ### Reset and the registers -/

/-- The values `reset` leaves, from any state, and what `power_on` adds (spec/10_state.md section 9). The empty trace
is decision D8, `fault = none` D9, RAM's treatment D11, the zero tracker D15: the spec's own choices. The clauses on
`reset` say nothing of the tag and value of the invalid ways. The clause `powerOn s = State.reset` is an equality of whole
states: it takes in their zero, which the spec leaves unspecified and is the model's choice (log entry 3), and the zero
RAM of power-on (log entry 2). -/
def Obligations.ResetValues : Prop :=
  (∀ s : State,
    (∀ i : RegIdx, 2 ≤ i.toNat → readReg (applyReset s) i = 0) ∧
    readReg (applyReset s) 0 = 0 ∧ readReg (applyReset s) 1 = 1 ∧
    (∀ i : StatIdx, readStatus (applyReset s) i = false) ∧
    (applyReset s).pc = 0 ∧ (applyReset s).running = true ∧ (applyReset s).fault = none ∧
    (∀ st w, (wayOf (cacheSet (applyReset s) st) w).valid = false) ∧
    (∀ st, (cacheSet (applyReset s) st).plru = ⟨false, false, false, false, false, false, false⟩) ∧
    (applyReset s).ram = s.ram ∧ (applyReset s).trace = [] ∧
    (applyReset s).tracker.cycles = 0 ∧ (applyReset s).tracker.uniqueCacheLocations = [] ∧
    (applyReset s).tracker.uniqueRamLocations = []) ∧
  (∀ s : State, powerOn s = State.reset ∧ ∀ a, (powerOn s).ram.read a = 0)

/-- Register reads: `R[0]` and `R[1]` are hardwired in every state, the other thirty read what is stored (R21). -/
def Obligations.RegisterReads : Prop :=
  ∀ s : State, readReg s 0 = 0 ∧ readReg s 1 = 1 ∧
    ∀ (i : RegIdx) (_ : 2 ≤ i.toNat) (hk : i.toNat - 2 < 30), readReg s i = s.regs[i.toNat - 2]

/-- Register writes: a write to index 0 or 1 is discarded, for every writing instruction, while everything else the
instruction does still happens (a LOAD's access of its source, the PC update); any other write is stored and leaves the
other registers alone (R22). -/
def Obligations.RegisterWrites : Prop :=
  (∀ (s : State) (i : RegIdx) (v : Word), RegWritten i v s (writeReg s i v)) ∧
  (∀ (s : State) (i : RegIdx) (v : Word), i = 0 ∨ i = 1 → writeReg s i v = s) ∧
  (∀ (rd ra rb : RegIdx) (s : State), rd = 0 ∨ rd = 1 →
    exec (.add rd ra rb) s = .next (advance s) ∧ exec (.sub rd ra rb) s = .next (advance s) ∧
    exec (.lshift rd ra rb) s = .next (advance s) ∧ exec (.rshift rd ra rb) s = .next (advance s)) ∧
  (∀ (rA : RegIdx) (f : Flags) (data : Addr) (s : State), rA = 0 ∨ rA = 1 →
    exec (.load rA f data) s = .next (advance (loadSource (encode (.load rA f data)) f data s).2))

/-- Which data registers each instruction writes and reads (R24): a register that changes is the instruction's
destination, and a register the instruction does not read can be given any value without changing anything else it
does. -/
def Obligations.DataRegisterUse : Prop :=
  (∀ (i : Instr) (s t : State) (r : RegIdx), exec i s = .next t → readReg t r ≠ readReg s r → regDest i = some r) ∧
  (∀ (i : Instr) (s : State) (q : RegIdx) (v : Word), q ∉ regReads i →
    ∃ t u, exec i s = .next t ∧ exec i (writeReg s q v) = .next u ∧
      u = { t with regs := u.regs } ∧ ∀ r, r ≠ q ∨ regDest i = some r → readReg u r = readReg t r)

/-- The 32 status bits are ordinary: every index can be written and reads back, the others keep their values (R25). -/
def Obligations.StatusBitsOrdinary : Prop :=
  ∀ (s : State) (i : StatIdx) (b : Bool), StatusWritten i b s (writeStatus s i b) ∧
    (writeStatus s i b).regs = s.regs ∧ (writeStatus s i b).ram = s.ram ∧ (writeStatus s i b).pc = s.pc

/-- Only a compare writes a status bit, the one bit `s[data5]`, and only JMP reads one, the one bit `s[arg1]` (R26):
giving the other bits any values changes nothing else that any instruction does, and no instruction copies a status bit to
a data register or to memory. -/
def Obligations.StatusBitUse : Prop :=
  (∀ (i : Instr) (s t : State) (b : StatIdx), exec i s = .next t → readStatus t b ≠ readStatus s b →
    statusDest i = some b) ∧
  (∀ (i : Instr) (s s' : State), s' = { s with status := s'.status } →
    (∀ b, statusRead i = some b → readStatus s' b = readStatus s b) →
    ∃ t u, exec i s = .next t ∧ exec i s' = .next u ∧ u = { t with status := u.status } ∧
      ∀ b, statusDest i = some b → readStatus u b = readStatus t b) ∧
  (∀ (i : Instr) (s s' : State), s' = { s with status := s'.status } →
    ∃ t u, exec i s = .next t ∧ exec i s' = .next u ∧ u.regs = t.regs ∧ u.ram = t.ram)

/-! ### The step, the program counter, the end of a run -/

/-- A step runs the decoded instruction (R130): while running, it fetches at `pc` through the cache after emitting
FETCH, and is `exec` of what the fetched word decodes to, or the error; the fetch changes nothing but the cache, the
trace and the tracker. In a state that meets the invariant the fetched word is RAM's word at `pc`, so a step runs what
that word decodes to. -/
def Obligations.StepRunsDecodedInstruction : Prop :=
  (∀ s : State, fetch s = memRead .fetch s.pc (emit s (.fetch s.pc)) ∧
    (fetch s).2 = { s with cache := (fetch s).2.cache, trace := (fetch s).2.trace, tracker := (fetch s).2.tracker }) ∧
  (∀ s : State, Inv s → (fetch s).1 = s.ram.read s.pc) ∧
  (∀ (s : State) (i : Instr), s.running = true → decode (fetch s).1 = some i → step s = exec i (fetch s).2) ∧
  (∀ s : State, s.running = true → decode (fetch s).1 = none →
    step s = .next (raiseBadInstruction (fetch s).2 (fetch s).1)) ∧
  (∀ (s : State) (i : Instr), Inv s → s.running = true → decode (s.ram.read s.pc) = some i →
    step s = exec i (fetch s).2) ∧
  (∀ s : State, s.running = false → ∀ t, step s ≠ .next t)

/-- A core whose run has ended takes no step: it answers the fault that says how the run ended (spec/40_step_nop_halt.md
section 1, decision D10; the two faults' names are the model's, log entry 7). -/
def Obligations.StoppedCoreTakesNoStep : Prop :=
  ∀ s : State, s.running = false →
    (s.fault = none → step s = .fault .halted) ∧
    (∀ e, s.fault = some e → step s = .fault (.stoppedByBadInstruction e))

/-- How PC advances (spec/10_state.md section 4): the default is `pc + 1` modulo 2^16, and a JMP whose condition holds
overrides it. A step on an illegal opcode leaves PC as it was: that is the spec's own choice, decision D9 (log entry
8). -/
def Obligations.PcAfterStep : Prop :=
  (∀ (i : Instr) (s t : State), exec i s = .next t → t.pc.toNat = pcAfter i s) ∧
  (∀ s t : State, step s = .next t → decode (fetch s).1 = none → t.pc = s.pc)

/-- `running` (R29): set by reset, cleared by HALT and by BadInstruction and by nothing else; no instruction reads it;
steps are taken only while it is true. -/
def Obligations.RunningFlag : Prop :=
  (∀ s : State, (applyReset s).running = true) ∧
  (∀ (i : Instr) (s t : State), exec i s = .next t → t.running = (if i = .halt then false else s.running)) ∧
  (∀ s t : State, step s = .next t → decode (fetch s).1 = none → t.running = false) ∧
  (∀ (i : Instr) (s : State) (b : Bool), ∃ t, exec i s = .next t ∧
    exec i { s with running := b } = .next { t with running := if i = .halt then false else b }) ∧
  (∀ s t : State, step s = .next t → s.running = true)

/-- Taking BadInstruction (spec/60_exceptions.md section 3, decision D9): a step whose fetched word has no defined opcode
latches the error with `pc` and the word and stops; `pc`, the registers, the status bits and RAM are unchanged, the
cache, the trace and the tracker are those the fetch left, with FETCH emitted and 1 ns charged; no step follows. -/
def Obligations.BadInstructionTaken : Prop :=
  ∀ s : State, s.running = true → decode (fetch s).1 = none →
    ∃ t, step s = .next t ∧ t.fault = some { pc := s.pc, iw := (fetch s).1 } ∧ t.running = false ∧ t.pc = s.pc ∧
      SameRegs s t ∧ SameStatus s t ∧ SameMemory s t ∧ AccessOf (fetch s).2 t ∧
      t.trace = s.trace ++ fetchEvents s ∧ t.tracker.cycles = addCycles s.tracker.cycles 1 ∧
      step t = .fault (.stoppedByBadInstruction { pc := s.pc, iw := (fetch s).1 })

/-- The error is latched by an illegal opcode only, and no instruction with a legal opcode can raise anything: `exec`
always answers a next state, with the latch as it was (spec/60_exceptions.md section 1, decision D9). -/
def Obligations.OnlyIllegalOpcodesRaise : Prop :=
  (∀ (i : Instr) (s : State), ∃ t, exec i s = .next t ∧ t.fault = s.fault) ∧
  (∀ s t : State, step s = .next t → t.fault ≠ s.fault → decode (fetch s).1 = none)

/-- No step undoes what only reset undoes: a step never sets `running` again, never clears the latched error, never
makes a valid way invalid (spec/70_reset_and_hazards.md section 2, decisions D10, D11). -/
def Obligations.OnlyResetUndoes : Prop :=
  ∀ s t : State, step s = .next t →
    s.running = true ∧ (s.fault ≠ none → t.fault ≠ none) ∧
    ∀ st w, (wayOf (cacheSet s st) w).valid = true → (wayOf (cacheSet t st) w).valid = true

/-- The run loop `while running: step()` (R131): every step of a running core completes, a run takes steps until
`running` is false, and a host that stops it after some steps leaves the state as it stands between two steps, with
`running` still true unless the run had ended. -/
def Obligations.RunLoop : Prop :=
  (∀ s : State, s.running = true → ∃ t, step s = .next t) ∧
  (∀ (n : Nat) (s t : State), step s = .next t → run (n + 1) s = run n t) ∧
  (∀ (n : Nat) (s : State), s.running = false → run n s = s) ∧
  (∀ (m n : Nat) (s : State), run (m + n) s = run n (run m s)) ∧
  (∀ (n : Nat) (s : State), (run n s).running = true → ∀ m, m ≤ n → (run m s).running = true) ∧
  (∀ (n : Nat) (s : State), (run n s).running = true → step (run n s) = .next (run (n + 1) s))

/-- The host's view of the end of a run (R263): after a step that stopped the core, `fault = none` means a HALT
executed, and BadInstruction(pc, iw) means that the word `iw` at address `pc` had no defined opcode. -/
def Obligations.RunEndReading : Prop :=
  ∀ s t : State, Inv s → step s = .next t →
    (runEnd t = .stillRunning ↔ t.running = true) ∧
    (runEnd t = .normal ↔ decode (fetch s).1 = some .halt) ∧
    (∀ e, runEnd t = .byFault e ↔ decode (fetch s).1 = none ∧ e = { pc := s.pc, iw := (fetch s).1 })

/-! ### Memory and cache -/

/-- RAM: every address can be written and reads back, every other address is left alone, and the list stays in its
canonical form, so that equal memories are equal data (spec/20_memory.md section 1; the form is the model's, log entry
1). -/
def Obligations.MemoryReadAfterWrite : Prop :=
  (∀ (m : Memory) (a b : Addr) (v : Word), m.wf →
    (m.write a v).wf ∧ (m.write a v).read b = if b = a then v else m.read b) ∧
  (∀ m m' : Memory, m.wf → m'.wf → (∀ a, m.read a = m'.read a) → m = m')

/-- The address split (R58): `set(a) = (a >> 11) & 0x1F`, `tag(a) = a & 0x7FF`, and the two give the address back. -/
def Obligations.AddressSplit : Prop :=
  ∀ a : Addr, (setIdxOf a).toNat = (a.toNat >>> 11) &&& 0x1F ∧ (tagOf a).toNat = a.toNat &&& 0x7FF ∧
    (a.toNat = (setIdxOf a).toNat * 2048 + (tagOf a).toNat)

/-- `Touch` (spec/20_memory.md section 3): the bits written for each way, the others unchanged; touching twice is touching
once, which the spec derives from its table. That 0 selects the lower ways at the nodes `b[1..6]` is decision D13 (log
entry 14). -/
def Obligations.TouchWritesPath : Prop :=
  ∀ p : Plru,
    touch p 0 = { p with b0 := true, b1 := true, b3 := true } ∧
    touch p 1 = { p with b0 := true, b1 := true, b3 := false } ∧
    touch p 2 = { p with b0 := true, b1 := false, b4 := true } ∧
    touch p 3 = { p with b0 := true, b1 := false, b4 := false } ∧
    touch p 4 = { p with b0 := false, b2 := true, b5 := true } ∧
    touch p 5 = { p with b0 := false, b2 := true, b5 := false } ∧
    touch p 6 = { p with b0 := false, b2 := false, b6 := true } ∧
    touch p 7 = { p with b0 := false, b2 := false, b6 := false } ∧
    ∀ w, touch (touch p w) w = touch p w

/-- `Victim` follows the tree from the root, valid ways or not (spec/20_memory.md section 3; always the tree is decision
D12, the orientation of the lower nodes D13). -/
def Obligations.VictimFollowsTree : Prop :=
  ∀ p : Plru, (victim p).toNat =
    4 * p.b0.toNat + 2 * (if p.b0 then p.b2 else p.b1).toNat +
      (if p.b0 then (if p.b2 then p.b6 else p.b5) else (if p.b1 then p.b4 else p.b3)).toNat

/-- After an access the touched way is not the next victim of its set (spec/20_memory.md R72, derived there from R60 and
R61). -/
def Obligations.TouchedWayNotNextVictim : Prop :=
  (∀ (k : AccessKind) (a : Addr) (s : State),
    victim (cacheSet (memRead k a s).2 (setIdxOf a)).plru ≠ accessWay a s) ∧
  (∀ (a : Addr) (v : Word) (s : State), victim (cacheSet (memWrite a v s) (setIdxOf a)).plru ≠ accessWay a s)

/-- `MemRead` (spec/20_memory.md section 4; that a fetch reports neither HIT nor MISS is decision D5, the victim D12, the
order of the events D8): on a hit the way's word and no change of any way, on a miss RAM's word, with the victim filled;
in both cases the way is touched, and nothing else in the state changes. -/
def Obligations.ReadAccess : Prop :=
  ∀ (k : AccessKind) (a : Addr) (s : State),
    (∀ w, UniqueTags s → (wayOf (cacheSet s (setIdxOf a)) w).valid = true →
      (wayOf (cacheSet s (setIdxOf a)) w).tag = tagOf a →
      accessWay a s = w ∧ (memRead k a s).1 = (wayOf (cacheSet s (setIdxOf a)) w).value ∧
      (∀ st w', wayOf (cacheSet (memRead k a s).2 st) w' = wayOf (cacheSet s st) w') ∧
      (memRead k a s).2.trace = s.trace ++ (if k = .data then [.hit a] else [])) ∧
    (¬ InCache a s →
      accessWay a s = victim (cacheSet s (setIdxOf a)).plru ∧ (memRead k a s).1 = s.ram.read a ∧
      (∀ st w', wayOf (cacheSet (memRead k a s).2 st) w' =
        if st = setIdxOf a ∧ w' = accessWay a s then { valid := true, tag := tagOf a, value := s.ram.read a }
        else wayOf (cacheSet s st) w') ∧
      (memRead k a s).2.trace =
        s.trace ++ (if k = .data then [.miss a] else []) ++ [.writeCache (setIdxOf a) (accessWay a s)]) ∧
    (∀ st, (cacheSet (memRead k a s).2 st).plru =
      if st = setIdxOf a then touch (cacheSet s st).plru (accessWay a s) else (cacheSet s st).plru) ∧
    (memRead k a s).2 = { s with
      cache := (memRead k a s).2.cache
      trace := (memRead k a s).2.trace
      tracker := (memRead k a s).2.tracker }

/-- `MemWrite` (spec/20_memory.md section 4; the order of the events is decision D8, log entry 11, and the victim always the
tree's is decision D12, log entry 14): on a hit the way that holds the address, on a miss the victim, ends as `(1, tg, v)`; RAM is written
in both cases, WRITE_CACHE is emitted in both cases after HIT or MISS, the way is touched, and nothing else changes. -/
def Obligations.WriteAccess : Prop :=
  ∀ (a : Addr) (v : Word) (s : State),
    (∀ w, UniqueTags s → (wayOf (cacheSet s (setIdxOf a)) w).valid = true →
      (wayOf (cacheSet s (setIdxOf a)) w).tag = tagOf a →
      accessWay a s = w ∧ (memWrite a v s).trace = s.trace ++ [.hit a, .writeCache (setIdxOf a) w]) ∧
    (¬ InCache a s →
      accessWay a s = victim (cacheSet s (setIdxOf a)).plru ∧
      (memWrite a v s).trace = s.trace ++ [.miss a, .writeCache (setIdxOf a) (accessWay a s)]) ∧
    (∀ st w', wayOf (cacheSet (memWrite a v s) st) w' =
      if st = setIdxOf a ∧ w' = accessWay a s then { valid := true, tag := tagOf a, value := v }
      else wayOf (cacheSet s st) w') ∧
    (∀ st, (cacheSet (memWrite a v s) st).plru =
      if st = setIdxOf a then touch (cacheSet s st).plru (accessWay a s) else (cacheSet s st).plru) ∧
    (s.ram.wf → ∀ b, (memWrite a v s).ram.read b = if b = a then v else s.ram.read b) ∧
    memWrite a v s = { s with
      ram := (memWrite a v s).ram
      cache := (memWrite a v s).cache
      trace := (memWrite a v s).trace
      tracker := (memWrite a v s).tracker }

/-- Every step keeps the invariant: RAM in canonical form, the cache coherent with RAM and with unique tags
(spec/20_memory.md R70, R71), a latched error only in a stopped core, the tracker's sets canonical and holding every
live way. -/
def Obligations.StepKeepsInvariant : Prop :=
  ∀ s t : State, Inv s → step s = .next t → Inv t

/-- The invariant holds after power-on, after `reset` of any state whose RAM is canonical, and after `load`
(spec/20_memory.md section 5; RAM's treatment is decision D11). -/
def Obligations.HostEstablishesInvariant : Prop :=
  Inv State.reset ∧ (∀ s : State, s.ram.wf → Inv (applyReset s)) ∧
  (∀ (image : List Word) (s t : State), Inv s → load image s = .next t → Inv t)

/-- Coherence as a program sees it (spec/20_memory.md R70): a read of either kind gives RAM's word and leaves RAM alone,
and after a write the address reads as the word written. -/
def Obligations.ReadReturnsRam : Prop :=
  (∀ (k : AccessKind) (a : Addr) (s : State), Inv s →
    (memRead k a s).1 = s.ram.read a ∧ (memRead k a s).2.ram = s.ram) ∧
  (∀ (k : AccessKind) (a b : Addr) (v : Word) (s : State), Inv s →
    (memRead k b (memWrite a v s)).1 = if b = a then v else s.ram.read b)

/-- Transparency (spec/20_memory.md R73): registers, status bits, PC, `running`, `fault` and RAM evolve exactly as in the
machine over plain RAM, with no cache at all. -/
def Obligations.CacheIsTransparent : Prop :=
  ∀ s : State, Inv s →
    match step s with
    | .next t => flatStep (flatOf s) = .next (flatOf t)
    | .fault r => flatStep (flatOf s) = .fault r
    | .refused r => flatStep (flatOf s) = .refused r

/-- Instruction-fetch coherence (R76): a store is seen by every later fetch with nothing in between, the very next
instruction included, while a store to the address of the executing instruction does not change its own execution,
which uses the word already fetched. -/
def Obligations.StoreSeenByFetch : Prop :=
  ∀ (s t : State) (rA : RegIdx) (f : Flags) (data : Addr), Inv s → s.running = true →
    decode (s.ram.read s.pc) = some (.store rA f data) → step s = .next t →
    (fetch s).1 = s.ram.read s.pc ∧
    t.ram.read data = splice (if f.im then s.ram.read s.pc else readReg s rA) (s.ram.read data) f ∧
    (data = s.pc + 1 → (fetch t).1 = t.ram.read data) ∧
    (∀ u : State, Inv u → u.pc = data → u.ram.read data = t.ram.read data → (fetch u).1 = t.ram.read data)

/-! ### Encoding -/

/-- The one field layout (R101): the extraction of each field, and that encoding and decoding the fields are inverse in
both directions. -/
def Obligations.FieldLayout : Prop :=
  (∀ w : Word, (splitWord w).op.toNat = w.toNat &&& 0x3F ∧ (splitWord w).arg1.toNat = (w.toNat >>> 6) &&& 0x1F ∧
    (splitWord w).arg2.toNat = (w.toNat >>> 11) &&& 0x1F ∧ (splitWord w).data.toNat = (w.toNat >>> 16) &&& 0xFFFF ∧
    (data5 (splitWord w).data).toNat = (splitWord w).data.toNat &&& 0x1F ∧ joinFields (splitWord w) = w) ∧
  (∀ f : Fields, splitWord (joinFields f) = f ∧
    (joinFields f).toNat =
      f.op.toNat ||| (f.arg1.toNat <<< 6) ||| (f.arg2.toNat <<< 11) ||| (f.data.toNat <<< 16))

/-- Decoding the encoding of any instruction gives it back, with every operand at every value (spec/30_encoding.md: the
layout R101, the formats R102, the flags R106 and R107, the opcode map R108, the decode procedure R109). -/
def Obligations.DecodeEncodeRoundTrip : Prop :=
  ∀ i : Instr, decode (encode i) = some i

/-- A word decodes by its used bits alone, and encoding what it decodes to gives back exactly those bits: no bit but an
ignored one is dropped (spec/30_encoding.md sections 3 and 4; which bits of NOP, HALT and JMP are ignored is decision
D4). -/
def Obligations.IgnoredBitsOnlyAreDropped : Prop :=
  (∀ (w : Word) (i : Instr), decode w = some i → encode i = w &&& usedBits i) ∧
  (∀ (w w' : Word) (i : Instr), decode w = some i → w &&& usedBits i = w' &&& usedBits i → decode w' = some i)

/-- Reserved bits of formats R and C (R104): `iw[31:21]` of the ALU instructions and the compares are ignored: any value
is accepted, and the word decodes, and so behaves, as with those bits 0. -/
def Obligations.ReservedBitsIgnored : Prop :=
  ∀ w : Word, w.toNat % 64 ∈ [9, 10, 11, 12, 16, 18, 19] →
    decode w ≠ none ∧ decode w = decode (w &&& 0x001FFFFF)

/-- Illegal encodings (R110): the 51 opcode values not in the opcode map are all illegal, whatever the other 26 bits hold,
and every other word decodes. -/
def Obligations.IllegalOpcodes : Prop :=
  (∀ w : Word, decode w = none ↔
    w.toNat % 64 ∈ [2, 3, 4, 5, 6, 7, 8, 13, 14, 15, 17, 20, 21, 22, 23, 24, 27, 28, 29, 30, 31, 32] ∨
    34 ≤ w.toNat % 64 ∧ w.toNat % 64 ≤ 62) ∧
  (∀ w : Word, (decode w).isSome = wordWellFormed w)

/-- A few words written out from the layout, the formats and the opcode map of spec/30_encoding.md sections 1 to 3 decode to
the instructions they stand for, and one with an undefined opcode decodes to none (section 4). The words are those of
spec/95_test_vectors.md B1, but the HALT, which is B6's, and the COMP, which is B3's. That the operand bits of the HALT are
ignored is decision D4 (log entry 6); that the reserved bits of the COMP are is R104. -/
def Obligations.WrittenOutWordsDecode : Prop :=
  decode 0x00000000 = some .nop ∧ decode 0xFFFFFFC1 = some .halt ∧
  decode 0x00041889 = some (.add 4 2 3) ∧ decode 0xFFE51890 = some (.comp 5 2 3) ∧
  decode 0xABCDD899 = some (.load 2 ⟨true, true, false, true, true⟩ 0xABCD) ∧
  decode 0x0002895A = some (.store 5 ⟨true, false, false, false, true⟩ 0x0002) ∧
  decode 0x000518E1 = some (.jmp 3 true true 5) ∧ decode 0x001018BF = some (.print 2 3 0x0010) ∧
  decode 0xABCD0002 = none

/-! ### The instructions -/

/-- NOP (spec/40_step_nop_halt.md section 2): no effect but the step's `pc + 1`, and the fetch only. That any word whose low
six bits are 0 is a NOP, its other bits ignored, is decision D4 (log entry 6). -/
def Obligations.NopResult : Prop :=
  (∀ w : Word, w.toNat % 64 = 0 → decode w = some .nop) ∧
  (∀ s : State, ∃ t, exec .nop s = .next t ∧ SameRegs s t ∧ SameStatus s t ∧ SameMemory s t ∧ SameControl s t ∧
    NoAccess s t ∧ t.pc = s.pc + 1) ∧
  FetchOnly .nop

/-- HALT (spec/40_step_nop_halt.md section 3): `running` is cleared and PC takes the default update; `fault` and everything
else stay. That any word whose low six bits are 1 is a HALT, its other bits ignored, is decision D4 (log entry 6). -/
def Obligations.HaltResult : Prop :=
  (∀ w : Word, w.toNat % 64 = 1 → decode w = some .halt) ∧
  (∀ s : State, ∃ t, exec .halt s = .next t ∧ t.running = false ∧ t.fault = s.fault ∧ SameRegs s t ∧ SameStatus s t ∧
    SameMemory s t ∧ NoAccess s t ∧ t.pc = s.pc + 1) ∧
  FetchOnly .halt

/-- ADD (R151): `x[data5] <- (x[arg1] + x[arg2]) mod 2^32`. -/
def Obligations.AddResult : Prop :=
  (∀ w : Word, w.toNat % 64 = 9 →
    decode w = some (.add (w.extractLsb' 16 5) (w.extractLsb' 6 5) (w.extractLsb' 11 5))) ∧
  (∀ (rd ra rb : RegIdx) (s : State), ∃ t v, exec (.add rd ra rb) s = .next t ∧
    v.toNat = ((readReg s ra).toNat + (readReg s rb).toNat) % 2 ^ 32 ∧ AluEffect rd v s t) ∧
  (∀ rd ra rb : RegIdx, FetchOnly (.add rd ra rb))

/-- SUB (R152): `x[data5] <- (x[arg1] + 2^32 - x[arg2]) mod 2^32`. -/
def Obligations.SubResult : Prop :=
  (∀ w : Word, w.toNat % 64 = 10 →
    decode w = some (.sub (w.extractLsb' 16 5) (w.extractLsb' 6 5) (w.extractLsb' 11 5))) ∧
  (∀ (rd ra rb : RegIdx) (s : State), ∃ t v, exec (.sub rd ra rb) s = .next t ∧
    v.toNat = ((readReg s ra).toNat + 2 ^ 32 - (readReg s rb).toNat) % 2 ^ 32 ∧ AluEffect rd v s t) ∧
  (∀ rd ra rb : RegIdx, FetchOnly (.sub rd ra rb))

/-- LSHIFT (R153): `x[data5] <- (x[arg1] * 2^(x[arg2] mod 32)) mod 2^32`. -/
def Obligations.LshiftResult : Prop :=
  (∀ w : Word, w.toNat % 64 = 11 →
    decode w = some (.lshift (w.extractLsb' 16 5) (w.extractLsb' 6 5) (w.extractLsb' 11 5))) ∧
  (∀ (rd ra rb : RegIdx) (s : State), ∃ t v, exec (.lshift rd ra rb) s = .next t ∧
    v.toNat = ((readReg s ra).toNat * 2 ^ ((readReg s rb).toNat % 32)) % 2 ^ 32 ∧ AluEffect rd v s t) ∧
  (∀ rd ra rb : RegIdx, FetchOnly (.lshift rd ra rb))

/-- RSHIFT (R154): `x[data5] <- floor(x[arg1] / 2^(x[arg2] mod 32))`, logical. -/
def Obligations.RshiftResult : Prop :=
  (∀ w : Word, w.toNat % 64 = 12 →
    decode w = some (.rshift (w.extractLsb' 16 5) (w.extractLsb' 6 5) (w.extractLsb' 11 5))) ∧
  (∀ (rd ra rb : RegIdx) (s : State), ∃ t v, exec (.rshift rd ra rb) s = .next t ∧
    v.toNat = (readReg s ra).toNat / 2 ^ ((readReg s rb).toNat % 32) ∧ AluEffect rd v s t) ∧
  (∀ rd ra rb : RegIdx, FetchOnly (.rshift rd ra rb))

/-- COMP (R171): `s[data5] <- (x[arg1] = x[arg2]) ? 1 : 0`. -/
def Obligations.CompResult : Prop :=
  (∀ w : Word, w.toNat % 64 = 16 →
    decode w = some (.comp (w.extractLsb' 16 5) (w.extractLsb' 6 5) (w.extractLsb' 11 5))) ∧
  (∀ (sd : StatIdx) (ra rb : RegIdx) (s : State), ∃ t v, exec (.comp sd ra rb) s = .next t ∧
    (v = true ↔ (readReg s ra).toNat = (readReg s rb).toNat) ∧ CompareEffect sd v s t) ∧
  (∀ (sd : StatIdx) (ra rb : RegIdx), FetchOnly (.comp sd ra rb))

/-- COMPGRT (R172): `s[data5] <- (x[arg1] > x[arg2]) ? 1 : 0`, unsigned. -/
def Obligations.CompgrtResult : Prop :=
  (∀ w : Word, w.toNat % 64 = 18 →
    decode w = some (.compgrt (w.extractLsb' 16 5) (w.extractLsb' 6 5) (w.extractLsb' 11 5))) ∧
  (∀ (sd : StatIdx) (ra rb : RegIdx) (s : State), ∃ t v, exec (.compgrt sd ra rb) s = .next t ∧
    (v = true ↔ (readReg s ra).toNat > (readReg s rb).toNat) ∧ CompareEffect sd v s t) ∧
  (∀ (sd : StatIdx) (ra rb : RegIdx), FetchOnly (.compgrt sd ra rb))

/-- COMPLST (R173): `s[data5] <- (x[arg1] < x[arg2]) ? 1 : 0`, unsigned; always the COMPGRT of the exchanged operands. -/
def Obligations.ComplstResult : Prop :=
  (∀ w : Word, w.toNat % 64 = 19 →
    decode w = some (.complst (w.extractLsb' 16 5) (w.extractLsb' 6 5) (w.extractLsb' 11 5))) ∧
  (∀ (sd : StatIdx) (ra rb : RegIdx) (s : State), ∃ t v, exec (.complst sd ra rb) s = .next t ∧
    (v = true ↔ (readReg s ra).toNat < (readReg s rb).toNat) ∧ CompareEffect sd v s t ∧
    exec (.complst sd ra rb) s = exec (.compgrt sd rb ra) s) ∧
  (∀ (sd : StatIdx) (ra rb : RegIdx), FetchOnly (.complst sd ra rb))

/-- `Splice` (R191): the nine cases, for every source and old word. The high half of a word is its value divided by
65536, the low half the remainder. -/
def Obligations.SpliceCases : Prop :=
  ∀ (src old : Word) (im a b c : Bool),
    splice src old ⟨false, a, b, c, im⟩ = src ∧
    (splice src old ⟨true, false, false, false, im⟩).toNat = old.toNat / 65536 * 65536 + src.toNat % 65536 ∧
    (splice src old ⟨true, false, false, true, im⟩).toNat = src.toNat % 65536 ∧
    (splice src old ⟨true, false, true, false, im⟩).toNat = src.toNat % 65536 * 65536 + old.toNat % 65536 ∧
    (splice src old ⟨true, false, true, true, im⟩).toNat = src.toNat % 65536 * 65536 ∧
    (splice src old ⟨true, true, false, false, im⟩).toNat = old.toNat / 65536 * 65536 + src.toNat / 65536 ∧
    (splice src old ⟨true, true, false, true, im⟩).toNat = src.toNat / 65536 ∧
    (splice src old ⟨true, true, true, false, im⟩).toNat = src.toNat / 65536 * 65536 + old.toNat % 65536 ∧
    (splice src old ⟨true, true, true, true, im⟩).toNat = src.toNat / 65536 * 65536

/-- LOAD (spec/43_load_store.md section 2; that `IM = 1` makes no data access is decision D21): the splice of the source
word into the register, the read made whether or not the write is discarded, all else unchanged. -/
def Obligations.LoadResult : Prop :=
  (∀ w : Word, w.toNat % 64 = 25 → decode w = some (.load (w.extractLsb' 6 5)
    ⟨w.getLsbD 11, w.getLsbD 12, w.getLsbD 13, w.getLsbD 14, w.getLsbD 15⟩ (w.extractLsb' 16 16))) ∧
  (∀ (w : Word) (rA : RegIdx) (f : Flags) (data : Addr), decode w = some (.load rA f data) →
    encode (.load rA f data) = w) ∧
  (∀ (rA : RegIdx) (f : Flags) (data : Addr) (s : State), f.im = true →
    ∃ t, exec (.load rA f data) s = .next t ∧
      RegWritten rA (splice (encode (.load rA f data)) (readReg s rA) f) s t ∧ SameStatus s t ∧ SameMemory s t ∧
      SameControl s t ∧ NoAccess s t ∧ t.pc = s.pc + 1) ∧
  (∀ (rA : RegIdx) (f : Flags) (data : Addr) (s : State), f.im = false →
    ∃ t, exec (.load rA f data) s = .next t ∧
      RegWritten rA (splice (memRead .data data s).1 (readReg s rA) f) s t ∧ SameStatus s t ∧ SameMemory s t ∧
      SameControl s t ∧ AccessOf (memRead .data data s).2 t ∧ t.pc = s.pc + 1)

/-- A step that fetches a LOAD (spec/43_load_store.md R193, derived there from R191 and R192), in a state that meets the
invariant: the source is the fetched word itself or RAM's word at `data`. -/
def Obligations.LoadStep : Prop :=
  ∀ (s : State) (rA : RegIdx) (f : Flags) (data : Addr), Inv s → s.running = true →
    decode (s.ram.read s.pc) = some (.load rA f data) →
    ∃ t, step s = .next t ∧
      RegWritten rA (splice (if f.im then s.ram.read s.pc else s.ram.read data) (readReg s rA) f) s t ∧
      SameStatus s t ∧ SameMemory s t ∧ SameControl s t ∧ t.pc = s.pc + 1

/-- STORE (spec/43_load_store.md section 3; that preserving a half is one read and then one write is decision D7): the
word written is the splice of the source into the old word, written through at `data`; every other word of RAM, every
register and every status bit is unchanged. -/
def Obligations.StoreResult : Prop :=
  (∀ w : Word, w.toNat % 64 = 26 → decode w = some (.store (w.extractLsb' 6 5)
    ⟨w.getLsbD 11, w.getLsbD 12, w.getLsbD 13, w.getLsbD 14, w.getLsbD 15⟩ (w.extractLsb' 16 16))) ∧
  (∀ (w : Word) (rA : RegIdx) (f : Flags) (data : Addr), decode w = some (.store rA f data) →
    encode (.store rA f data) = w) ∧
  (∀ (rA : RegIdx) (f : Flags) (data : Addr) (s : State), s.ram.wf →
    ∃ t v, exec (.store rA f data) s = .next t ∧
      v = splice (if f.im then encode (.store rA f data) else readReg s rA)
        (if f.hlf = true ∧ f.ow = false then (memRead .data data s).1 else 0) f ∧
      t.ram.read data = v ∧ SameMemoryBut data s t ∧ SameRegs s t ∧ SameStatus s t ∧ SameControl s t ∧
      AccessOf (memWrite data v (if f.hlf = true ∧ f.ow = false then (memRead .data data s).2 else s)) t ∧
      t.pc = s.pc + 1)

/-- A step that fetches a STORE (spec/43_load_store.md R197, derived there from R191 and R196), in a state that meets the
invariant: RAM's word at `data` becomes the splice of the fetched word or the register into RAM's old word. -/
def Obligations.StoreStep : Prop :=
  ∀ (s : State) (rA : RegIdx) (f : Flags) (data : Addr), Inv s → s.running = true →
    decode (s.ram.read s.pc) = some (.store rA f data) →
    ∃ t, step s = .next t ∧
      t.ram.read data = splice (if f.im then s.ram.read s.pc else readReg s rA) (s.ram.read data) f ∧
      SameMemoryBut data s t ∧ SameRegs s t ∧ SameStatus s t ∧ SameControl s t ∧ t.pc = s.pc + 1

/-- The two laws of LOAD and STORE (R199): a LOAD after a STORE of the same address, of any form, returns the word then
stored there, and two half-word STOREs to opposite halves, in either order, reconstruct a whole word in memory. -/
def Obligations.StoreLoadLaws : Prop :=
  (∀ (rS rL : RegIdx) (f : Flags) (a b c : Bool) (addr : Addr) (s : State), Inv s →
    ∃ t u, exec (.store rS f addr) s = .next t ∧ exec (.load rL ⟨false, a, b, c, false⟩ addr) t = .next u ∧
      RegWritten rL (t.ram.read addr) s u ∧
      (f.hlf = false → f.im = false → t.ram.read addr = readReg s rS)) ∧
  (∀ (rL rH : RegIdx) (addr : Addr) (s : State), Inv s →
    ∃ t u t' u', exec (.store rL ⟨true, false, false, false, false⟩ addr) s = .next t ∧
      exec (.store rH ⟨true, false, true, false, false⟩ addr) t = .next u ∧
      exec (.store rH ⟨true, false, true, false, false⟩ addr) s = .next t' ∧
      exec (.store rL ⟨true, false, false, false, false⟩ addr) t' = .next u' ∧
      u.ram.read addr = joinHalves (lowHalf (readReg s rH)) (lowHalf (readReg s rL)) ∧
      u'.ram.read addr = joinHalves (lowHalf (readReg s rH)) (lowHalf (readReg s rL)))

/-- JMP (spec/44_jump.md section 2): taken when `s[arg1] = iw[11]`, to `pc - data` or `pc + data` modulo 2^16 from the
address of the JMP itself, else `pc + 1`; nothing else changes and there is no traffic beyond the fetch. That a word with
opcode 33 decodes alike whatever its bits 15:13 hold is decision D4 (log entry 6). -/
def Obligations.JmpResult : Prop :=
  (∀ w : Word, w.toNat % 64 = 33 →
    decode w = some (.jmp (w.extractLsb' 6 5) (w.getLsbD 11) (w.getLsbD 12) (w.extractLsb' 16 16))) ∧
  (∀ (si : StatIdx) (onHigh dec : Bool) (disp : BitVec 16) (s : State),
    ∃ t, exec (.jmp si onHigh dec disp) s = .next t ∧
      t.pc.toNat = (if readStatus s si = onHigh then
          (if dec then (s.pc.toNat + 65536 - disp.toNat) % 65536 else (s.pc.toNat + disp.toNat) % 65536)
        else (s.pc.toNat + 1) % 65536) ∧
      SameRegs s t ∧ SameStatus s t ∧ SameMemory s t ∧ SameControl s t ∧ NoAccess s t) ∧
  (∀ (si : StatIdx) (onHigh dec : Bool) (disp : BitVec 16), FetchOnly (.jmp si onHigh dec disp))

/-- PRINT (spec/45_print.md section 2; that its read is a data read like LOAD's is decision D6): the event of the two
registers and the word read follows the read's events, and the hook mutates nothing. -/
def Obligations.PrintResult : Prop :=
  (∀ w : Word, w.toNat % 64 = 63 →
    decode w = some (.print (w.extractLsb' 6 5) (w.extractLsb' 11 5) (w.extractLsb' 16 16))) ∧
  (∀ (ra rb : RegIdx) (data : Addr) (s : State),
    ∃ t, exec (.print ra rb data) s = .next t ∧
      t.trace = s.trace ++ readEvents data s ++ [.print (readReg s ra) (readReg s rb) (memRead .data data s).1] ∧
      (Inv s → (memRead .data data s).1 = s.ram.read data) ∧
      t.cache = (memRead .data data s).2.cache ∧ t.tracker = (memRead .data data s).2.tracker ∧
      SameRegs s t ∧ SameStatus s t ∧ SameMemory s t ∧ SameControl s t ∧ t.pc = s.pc + 1)

/-! ### Events, tracker and host -/

/-- The events of a step, in order (spec/20_memory.md section 4; decisions D5, D6, D7, D8): FETCH, the fetch's WRITE_CACHE
if it missed, then each data access's HIT or MISS and its WRITE_CACHE, then PRINT; the write of a half-word STORE that
preserves a half always hits, on the way its read ended in. -/
def Obligations.StepEvents : Prop :=
  ∀ s t : State, step s = .next t →
    t.trace = s.trace ++ stepEvents s

/-- What each event does to the tracker (spec/70_reset_and_hazards.md section 5; that only MISS adds a RAM location is
decision D14): the nanoseconds while they fit in 64 bits, exactly the named element in each set, and the sets stay in
canonical form. -/
def Obligations.TrackerUpdate : Prop :=
  ∀ (t : Tracker) (e : Event), t.wf →
    (observe t e).wf ∧
    (∀ p : SetIdx × WayIdx, p ∈ (observe t e).uniqueCacheLocations ↔
      e = .writeCache p.1 p.2 ∨ p ∈ t.uniqueCacheLocations) ∧
    (∀ a : Addr, a ∈ (observe t e).uniqueRamLocations ↔ e = .miss a ∨ a ∈ t.uniqueRamLocations) ∧
    (t.cycles.toNat + eventCost e < 2 ^ 64 → (observe t e).cycles.toNat = t.cycles.toNat + eventCost e)

/-- The tracker is derived from the events alone: a step keeps it the fold of the trace (spec/70_reset_and_hazards.md
section 5; what each event adds is the model of R297, whose RAM set is decision D14). -/
def Obligations.TrackerFollowsTraceKept : Prop :=
  (∀ s : State, TrackerFollowsTrace (applyReset s)) ∧
  (∀ s t : State, TrackerFollowsTrace s → step s = .next t → TrackerFollowsTrace t)

/-- The core is unaware of the tracker (R295): with any other tracker and any other earlier trace a step does exactly the
same to everything else, and appends the same events. -/
def Obligations.CoreUnawareOfTracker : Prop :=
  ∀ (s t : State) (tr : List Event) (tk : Tracker), step s = .next t →
    ∃ u es, step { s with trace := tr, tracker := tk } = .next u ∧
      u = { t with trace := u.trace, tracker := u.tracker } ∧
      t.trace = s.trace ++ es ∧ u.trace = tr ++ es ∧
      t.tracker = es.foldl observe s.tracker ∧ u.tracker = es.foldl observe tk

/-- The cost of each instruction (spec/70_reset_and_hazards.md R298, derived there from R297), while the count stays within
its 64 bits: 1 ns, plus 1 or 80 for a data access, plus 1 more for the write of a half-preserving STORE. -/
def Obligations.InstructionCost : Prop :=
  ∀ s t : State, step s = .next t → s.tracker.cycles.toNat + 82 < 2 ^ 64 →
    t.tracker.cycles.toNat = s.tracker.cycles.toNat + stepCost s

/-- The cost report (R299): `cycles` and the sizes of the two sets, which fit its 32-bit fields. -/
def Obligations.CostReportFields : Prop :=
  ∀ t : Tracker, t.wf →
    (costReport t).totalNs = t.cycles ∧
    (costReport t).cacheLocationsUsed.toNat = t.uniqueCacheLocations.length ∧
    (costReport t).ramLocationsUsed.toNat = t.uniqueRamLocations.length ∧
    t.uniqueCacheLocations.length ≤ 256 ∧ t.uniqueRamLocations.length ≤ 65536 ∧
    t.uniqueCacheLocations.Nodup ∧ t.uniqueRamLocations.Nodup

/-- The host's `load` (spec/70_reset_and_hazards.md section 1, decision D11): refused while any way is valid, so after any
step; refused on an image longer than the memory; else the image stands in RAM from address 0, the rest of RAM and of
the state is as it was, and no event is emitted. -/
def Obligations.HostLoad : Prop :=
  (∀ (image : List Word) (s : State), (∃ st w, (wayOf (cacheSet s st) w).valid = true) →
    load image s = .refused .loadWhileCacheValid) ∧
  (∀ (image : List Word) (s t : State), step s = .next t → load image t = .refused .loadWhileCacheValid) ∧
  (∀ (image : List Word) (s : State), (∀ st w, (wayOf (cacheSet s st) w).valid = false) → 65536 < image.length →
    load image s = .refused .imageTooLong) ∧
  (∀ (image : List Word) (s : State), (∀ st w, (wayOf (cacheSet s st) w).valid = false) → image.length ≤ 65536 →
    s.ram.wf →
    ∃ t, load image s = .next t ∧ t = { s with ram := t.ram } ∧
      ∀ a, t.ram.read a = (image[a.toNat]?).getD (s.ram.read a))

/-- The boot sequence (spec/70_reset_and_hazards.md section 3): power_on, load(image), optionally reset, which changes nothing
at this point, then run; the first fetch is of `RAM[0]`, the image's first word. That reset changes nothing is said of
whole states, so it takes in the tag and value of the invalid ways, whose zero is the model's choice (log entry 3). -/
def Obligations.BootSequence : Prop :=
  ∀ (image : List Word) (s : State), image.length ≤ 65536 →
    ∃ t, load image (powerOn s) = .next t ∧ applyReset t = t ∧ t.pc = 0 ∧ t.running = true ∧
      (∀ a, t.ram.read a = (image[a.toNat]?).getD 0) ∧ (fetch t).1 = image.headD 0 ∧
      (fetch t).2.trace.head? = some (.fetch 0) ∧
      (∀ fuel, boot image fuel s = .next (run fuel t))
end

