-- ==== Sys2Proof/Laws/Cost.lean ====
section
/-! SUPPORT. The tracker's sets stay in canonical form and hold exactly what was inserted. -/

namespace Sys2Proof.Machine

theorem mem_insertRising {α : Type} {key : α → Nat} (inj : ∀ x y, key x = key y → x = y) {x y : α} {l : List α} :
    y ∈ insertRising key x l ↔ y = x ∨ y ∈ l := by
  induction l with
  | nil => simp [insertRising]
  | cons z l ih =>
    unfold insertRising
    split
    · simp
    · split
      · rename_i _ h
        have := inj _ _ h
        subst this
        simp
      · simp only [List.mem_cons, ih]; tauto

theorem pairwise_insertRising {α : Type} {key : α → Nat} (inj : ∀ x y, key x = key y → x = y) (x : α) {l : List α}
    (h : l.Pairwise (fun p q => key p < key q)) :
    (insertRising key x l).Pairwise (fun p q => key p < key q) := by
  induction l with
  | nil => simp [insertRising]
  | cons z l ih =>
    rw [List.pairwise_cons] at h
    unfold insertRising
    split
    · rename_i hz
      refine List.pairwise_cons.2 ⟨?_, List.pairwise_cons.2 h⟩
      intro p hp
      rcases List.mem_cons.1 hp with rfl | hp
      · exact hz
      · exact Nat.lt_trans hz (h.1 p hp)
    · split
      · exact List.pairwise_cons.2 h
      · rename_i h1 h2
        refine List.pairwise_cons.2 ⟨?_, ih h.2⟩
        intro p hp
        rcases (mem_insertRising inj).1 hp with rfl | hp
        · omega
        · exact h.1 p hp

theorem locationKey_inj (x y : SetIdx × WayIdx) (h : locationKey x = locationKey y) : x = y := by
  obtain ⟨a, b⟩ := x
  obtain ⟨c, d⟩ := y
  simp only [locationKey] at h
  have hb := b.isLt
  have hd := d.isLt
  ext1 <;> apply BitVec.eq_of_toNat_eq <;> simp only <;> omega

theorem addrKey_inj (x y : Addr) (h : addrKey x = addrKey y) : x = y := BitVec.eq_of_toNat_eq h

/-- Observing an event keeps the canonical form of the tracker's sets. -/
theorem observe_wf {t : Tracker} (h : t.wf) (e : Event) : (observe t e).wf := by
  cases e with
  | fetch a => exact h
  | hit a => exact h
  | miss a => exact ⟨h.1, pairwise_insertRising addrKey_inj a h.2⟩
  | writeCache st w => exact ⟨pairwise_insertRising locationKey_inj (st, w) h.1, h.2⟩
  | print a b m => exact h

/-- The locations after an event: those before, and the one a WRITE_CACHE names. -/
theorem mem_observe_locations {t : Tracker} {e : Event} {p : SetIdx × WayIdx} :
    p ∈ (observe t e).uniqueCacheLocations ↔ e = .writeCache p.1 p.2 ∨ p ∈ t.uniqueCacheLocations := by
  cases e <;> simp [observe, mem_insertRising locationKey_inj, Prod.ext_iff, eq_comm]

theorem addCycles_fits {c : BitVec 64} {n : Nat} (h : c.toNat + n < 2 ^ 64) : (addCycles c n).toNat = c.toNat + n := by
  unfold addCycles
  rw [if_pos h, BitVec.toNat_ofNat]
  omega

theorem observe_cycles_fits {t : Tracker} {e : Event} (h : t.cycles.toNat + eventCost e < 2 ^ 64) :
    (observe t e).cycles.toNat = t.cycles.toNat + eventCost e := by
  cases e <;> first | rfl | exact addCycles_fits h

theorem trackerOf_append (tr : List Event) (e : Event) : trackerOf (tr ++ [e]) = observe (trackerOf tr) e := by
  simp [trackerOf, List.foldl_append]

end Sys2Proof.Machine
end

