-- ==== Sys2Proof/Laws/State.lean ====
section
/-! SUPPORT. One lemma per field per update of State, so that no later proof unfolds a record update. -/

namespace Sys2Proof.Machine

/-! `writeReg` -/

@[simp] theorem writeReg_regs (s : State) (i : RegIdx) (v : Word) : (writeReg s i v).regs = writeRegs s.regs i v := rfl
@[simp] theorem writeReg_status (s : State) (i : RegIdx) (v : Word) : (writeReg s i v).status = s.status := rfl
@[simp] theorem writeReg_pc (s : State) (i : RegIdx) (v : Word) : (writeReg s i v).pc = s.pc := rfl
@[simp] theorem writeReg_running (s : State) (i : RegIdx) (v : Word) : (writeReg s i v).running = s.running := rfl
@[simp] theorem writeReg_fault (s : State) (i : RegIdx) (v : Word) : (writeReg s i v).fault = s.fault := rfl
@[simp] theorem writeReg_ram (s : State) (i : RegIdx) (v : Word) : (writeReg s i v).ram = s.ram := rfl
@[simp] theorem writeReg_cache (s : State) (i : RegIdx) (v : Word) : (writeReg s i v).cache = s.cache := rfl
@[simp] theorem writeReg_trace (s : State) (i : RegIdx) (v : Word) : (writeReg s i v).trace = s.trace := rfl
@[simp] theorem writeReg_tracker (s : State) (i : RegIdx) (v : Word) : (writeReg s i v).tracker = s.tracker := rfl

/-! `writeStatus` -/

@[simp] theorem writeStatus_regs (s : State) (i : StatIdx) (b : Bool) : (writeStatus s i b).regs = s.regs := rfl
@[simp] theorem writeStatus_status (s : State) (i : StatIdx) (b : Bool) : (writeStatus s i b).status = s.status.set i.toNat b i.isLt := rfl
@[simp] theorem writeStatus_pc (s : State) (i : StatIdx) (b : Bool) : (writeStatus s i b).pc = s.pc := rfl
@[simp] theorem writeStatus_running (s : State) (i : StatIdx) (b : Bool) : (writeStatus s i b).running = s.running := rfl
@[simp] theorem writeStatus_fault (s : State) (i : StatIdx) (b : Bool) : (writeStatus s i b).fault = s.fault := rfl
@[simp] theorem writeStatus_ram (s : State) (i : StatIdx) (b : Bool) : (writeStatus s i b).ram = s.ram := rfl
@[simp] theorem writeStatus_cache (s : State) (i : StatIdx) (b : Bool) : (writeStatus s i b).cache = s.cache := rfl
@[simp] theorem writeStatus_trace (s : State) (i : StatIdx) (b : Bool) : (writeStatus s i b).trace = s.trace := rfl
@[simp] theorem writeStatus_tracker (s : State) (i : StatIdx) (b : Bool) : (writeStatus s i b).tracker = s.tracker := rfl

/-! `setPc` -/

@[simp] theorem setPc_regs (s : State) (t : Addr) : (setPc s t).regs = s.regs := rfl
@[simp] theorem setPc_status (s : State) (t : Addr) : (setPc s t).status = s.status := rfl
@[simp] theorem setPc_pc (s : State) (t : Addr) : (setPc s t).pc = t := rfl
@[simp] theorem setPc_running (s : State) (t : Addr) : (setPc s t).running = s.running := rfl
@[simp] theorem setPc_fault (s : State) (t : Addr) : (setPc s t).fault = s.fault := rfl
@[simp] theorem setPc_ram (s : State) (t : Addr) : (setPc s t).ram = s.ram := rfl
@[simp] theorem setPc_cache (s : State) (t : Addr) : (setPc s t).cache = s.cache := rfl
@[simp] theorem setPc_trace (s : State) (t : Addr) : (setPc s t).trace = s.trace := rfl
@[simp] theorem setPc_tracker (s : State) (t : Addr) : (setPc s t).tracker = s.tracker := rfl

/-! `advance` -/

@[simp] theorem advance_regs (s : State) : (advance s).regs = s.regs := rfl
@[simp] theorem advance_status (s : State) : (advance s).status = s.status := rfl
@[simp] theorem advance_pc (s : State) : (advance s).pc = s.pc + 1 := rfl
@[simp] theorem advance_running (s : State) : (advance s).running = s.running := rfl
@[simp] theorem advance_fault (s : State) : (advance s).fault = s.fault := rfl
@[simp] theorem advance_ram (s : State) : (advance s).ram = s.ram := rfl
@[simp] theorem advance_cache (s : State) : (advance s).cache = s.cache := rfl
@[simp] theorem advance_trace (s : State) : (advance s).trace = s.trace := rfl
@[simp] theorem advance_tracker (s : State) : (advance s).tracker = s.tracker := rfl

/-! `stopRunning` -/

@[simp] theorem stopRunning_regs (s : State) : (stopRunning s).regs = s.regs := rfl
@[simp] theorem stopRunning_status (s : State) : (stopRunning s).status = s.status := rfl
@[simp] theorem stopRunning_pc (s : State) : (stopRunning s).pc = s.pc := rfl
@[simp] theorem stopRunning_running (s : State) : (stopRunning s).running = false := rfl
@[simp] theorem stopRunning_fault (s : State) : (stopRunning s).fault = s.fault := rfl
@[simp] theorem stopRunning_ram (s : State) : (stopRunning s).ram = s.ram := rfl
@[simp] theorem stopRunning_cache (s : State) : (stopRunning s).cache = s.cache := rfl
@[simp] theorem stopRunning_trace (s : State) : (stopRunning s).trace = s.trace := rfl
@[simp] theorem stopRunning_tracker (s : State) : (stopRunning s).tracker = s.tracker := rfl

/-! `setCacheSet` -/

@[simp] theorem setCacheSet_regs (s : State) (st : SetIdx) (c : CacheSet) : (setCacheSet s st c).regs = s.regs := rfl
@[simp] theorem setCacheSet_status (s : State) (st : SetIdx) (c : CacheSet) : (setCacheSet s st c).status = s.status := rfl
@[simp] theorem setCacheSet_pc (s : State) (st : SetIdx) (c : CacheSet) : (setCacheSet s st c).pc = s.pc := rfl
@[simp] theorem setCacheSet_running (s : State) (st : SetIdx) (c : CacheSet) : (setCacheSet s st c).running = s.running := rfl
@[simp] theorem setCacheSet_fault (s : State) (st : SetIdx) (c : CacheSet) : (setCacheSet s st c).fault = s.fault := rfl
@[simp] theorem setCacheSet_ram (s : State) (st : SetIdx) (c : CacheSet) : (setCacheSet s st c).ram = s.ram := rfl
@[simp] theorem setCacheSet_cache (s : State) (st : SetIdx) (c : CacheSet) : (setCacheSet s st c).cache = s.cache.set st.toNat c st.isLt := rfl
@[simp] theorem setCacheSet_trace (s : State) (st : SetIdx) (c : CacheSet) : (setCacheSet s st c).trace = s.trace := rfl
@[simp] theorem setCacheSet_tracker (s : State) (st : SetIdx) (c : CacheSet) : (setCacheSet s st c).tracker = s.tracker := rfl

/-! `emit` -/

@[simp] theorem emit_regs (s : State) (e : Event) : (emit s e).regs = s.regs := rfl
@[simp] theorem emit_status (s : State) (e : Event) : (emit s e).status = s.status := rfl
@[simp] theorem emit_pc (s : State) (e : Event) : (emit s e).pc = s.pc := rfl
@[simp] theorem emit_running (s : State) (e : Event) : (emit s e).running = s.running := rfl
@[simp] theorem emit_fault (s : State) (e : Event) : (emit s e).fault = s.fault := rfl
@[simp] theorem emit_ram (s : State) (e : Event) : (emit s e).ram = s.ram := rfl
@[simp] theorem emit_cache (s : State) (e : Event) : (emit s e).cache = s.cache := rfl
@[simp] theorem emit_trace (s : State) (e : Event) : (emit s e).trace = s.trace ++ [e] := rfl
@[simp] theorem emit_tracker (s : State) (e : Event) : (emit s e).tracker = observe s.tracker e := rfl

/-! `writeRam` -/

@[simp] theorem writeRam_regs (s : State) (a : Addr) (v : Word) : (writeRam s a v).regs = s.regs := rfl
@[simp] theorem writeRam_status (s : State) (a : Addr) (v : Word) : (writeRam s a v).status = s.status := rfl
@[simp] theorem writeRam_pc (s : State) (a : Addr) (v : Word) : (writeRam s a v).pc = s.pc := rfl
@[simp] theorem writeRam_running (s : State) (a : Addr) (v : Word) : (writeRam s a v).running = s.running := rfl
@[simp] theorem writeRam_fault (s : State) (a : Addr) (v : Word) : (writeRam s a v).fault = s.fault := rfl
@[simp] theorem writeRam_ram (s : State) (a : Addr) (v : Word) : (writeRam s a v).ram = s.ram.write a v := rfl
@[simp] theorem writeRam_cache (s : State) (a : Addr) (v : Word) : (writeRam s a v).cache = s.cache := rfl
@[simp] theorem writeRam_trace (s : State) (a : Addr) (v : Word) : (writeRam s a v).trace = s.trace := rfl
@[simp] theorem writeRam_tracker (s : State) (a : Addr) (v : Word) : (writeRam s a v).tracker = s.tracker := rfl

/-! `raiseBadInstruction` -/

@[simp] theorem raiseBadInstruction_regs (s : State) (iw : Word) : (raiseBadInstruction s iw).regs = s.regs := rfl
@[simp] theorem raiseBadInstruction_status (s : State) (iw : Word) : (raiseBadInstruction s iw).status = s.status := rfl
@[simp] theorem raiseBadInstruction_pc (s : State) (iw : Word) : (raiseBadInstruction s iw).pc = s.pc := rfl
@[simp] theorem raiseBadInstruction_running (s : State) (iw : Word) : (raiseBadInstruction s iw).running = false := rfl
@[simp] theorem raiseBadInstruction_fault (s : State) (iw : Word) : (raiseBadInstruction s iw).fault = some { pc := s.pc, iw := iw } := rfl
@[simp] theorem raiseBadInstruction_ram (s : State) (iw : Word) : (raiseBadInstruction s iw).ram = s.ram := rfl
@[simp] theorem raiseBadInstruction_cache (s : State) (iw : Word) : (raiseBadInstruction s iw).cache = s.cache := rfl
@[simp] theorem raiseBadInstruction_trace (s : State) (iw : Word) : (raiseBadInstruction s iw).trace = s.trace := rfl
@[simp] theorem raiseBadInstruction_tracker (s : State) (iw : Word) : (raiseBadInstruction s iw).tracker = s.tracker := rfl

/-! `touchWay` -/

@[simp] theorem touchWay_regs (s : State) (st : SetIdx) (w : WayIdx) : (touchWay s st w).regs = s.regs := rfl
@[simp] theorem touchWay_status (s : State) (st : SetIdx) (w : WayIdx) : (touchWay s st w).status = s.status := rfl
@[simp] theorem touchWay_pc (s : State) (st : SetIdx) (w : WayIdx) : (touchWay s st w).pc = s.pc := rfl
@[simp] theorem touchWay_running (s : State) (st : SetIdx) (w : WayIdx) : (touchWay s st w).running = s.running := rfl
@[simp] theorem touchWay_fault (s : State) (st : SetIdx) (w : WayIdx) : (touchWay s st w).fault = s.fault := rfl
@[simp] theorem touchWay_ram (s : State) (st : SetIdx) (w : WayIdx) : (touchWay s st w).ram = s.ram := rfl
@[simp] theorem touchWay_trace (s : State) (st : SetIdx) (w : WayIdx) : (touchWay s st w).trace = s.trace := rfl
@[simp] theorem touchWay_tracker (s : State) (st : SetIdx) (w : WayIdx) : (touchWay s st w).tracker = s.tracker := rfl

/-! `fillWay` -/

@[simp] theorem fillWay_regs (s : State) (st : SetIdx) (w : WayIdx) (tg : Tag) (v : Word) : (fillWay s st w tg v).regs = s.regs := rfl
@[simp] theorem fillWay_status (s : State) (st : SetIdx) (w : WayIdx) (tg : Tag) (v : Word) : (fillWay s st w tg v).status = s.status := rfl
@[simp] theorem fillWay_pc (s : State) (st : SetIdx) (w : WayIdx) (tg : Tag) (v : Word) : (fillWay s st w tg v).pc = s.pc := rfl
@[simp] theorem fillWay_running (s : State) (st : SetIdx) (w : WayIdx) (tg : Tag) (v : Word) : (fillWay s st w tg v).running = s.running := rfl
@[simp] theorem fillWay_fault (s : State) (st : SetIdx) (w : WayIdx) (tg : Tag) (v : Word) : (fillWay s st w tg v).fault = s.fault := rfl
@[simp] theorem fillWay_ram (s : State) (st : SetIdx) (w : WayIdx) (tg : Tag) (v : Word) : (fillWay s st w tg v).ram = s.ram := rfl
@[simp] theorem fillWay_trace (s : State) (st : SetIdx) (w : WayIdx) (tg : Tag) (v : Word) : (fillWay s st w tg v).trace = s.trace := rfl
@[simp] theorem fillWay_tracker (s : State) (st : SetIdx) (w : WayIdx) (tg : Tag) (v : Word) : (fillWay s st w tg v).tracker = s.tracker := rfl

/-! `applyReset` -/

@[simp] theorem applyReset_regs (s : State) : (applyReset s).regs = State.reset.regs := rfl
@[simp] theorem applyReset_status (s : State) : (applyReset s).status = State.reset.status := rfl
@[simp] theorem applyReset_pc (s : State) : (applyReset s).pc = 0 := rfl
@[simp] theorem applyReset_running (s : State) : (applyReset s).running = true := rfl
@[simp] theorem applyReset_fault (s : State) : (applyReset s).fault = none := rfl
@[simp] theorem applyReset_ram (s : State) : (applyReset s).ram = s.ram := rfl
@[simp] theorem applyReset_cache (s : State) : (applyReset s).cache = State.reset.cache := rfl
@[simp] theorem applyReset_trace (s : State) : (applyReset s).trace = [] := rfl
@[simp] theorem applyReset_tracker (s : State) : (applyReset s).tracker = Tracker.zero := rfl

/-- States are equal when their nine fields are. -/
theorem state_ext {s t : State} (h1 : s.regs = t.regs) (h2 : s.status = t.status) (h3 : s.pc = t.pc)
    (h4 : s.running = t.running) (h5 : s.fault = t.fault) (h6 : s.ram = t.ram) (h7 : s.cache = t.cache)
    (h8 : s.trace = t.trace) (h9 : s.tracker = t.tracker) : s = t := by
  cases s
  cases t
  simp only at h1 h2 h3 h4 h5 h6 h7 h8 h9
  subst h1 h2 h3 h4 h5 h6 h7 h8 h9
  rfl

/-! Reads look only at their own field. -/

theorem readReg_eq (s : State) (i : RegIdx) : readReg s i = readRegs s.regs i := rfl

theorem readReg_congr {s t : State} (h : t.regs = s.regs) (i : RegIdx) : readReg t i = readReg s i := by
  rw [readReg_eq, readReg_eq, h]

theorem readStatus_congr {s t : State} (h : t.status = s.status) (i : StatIdx) : readStatus t i = readStatus s i := by
  unfold readStatus; simp only [h]

theorem cacheSet_congr {s t : State} (h : t.cache = s.cache) (st : SetIdx) : cacheSet t st = cacheSet s st := by
  unfold cacheSet; simp only [h]

end Sys2Proof.Machine
end

