-- ==== Sys2Proof/Laws/Cache.lean ====
section
/-! SUPPORT. The cache: its sets and ways after an update, the lookup, the address split. -/

namespace Sys2Proof.Machine

/-! ### The address split -/

@[simp] theorem addrOf_split (a : Addr) : addrOf (setIdxOf a) (tagOf a) = a := by
  apply BitVec.eq_of_toNat_eq
  have := a.isLt
  simp only [addrOf, setIdxOf, tagOf, BitVec.toNat_append, BitVec.extractLsb'_toNat, Nat.shiftRight_eq_div_pow]
  rw [← Nat.shiftLeft_add_eq_or_of_lt (Nat.mod_lt _ (by decide)), Nat.shiftLeft_eq]
  omega

theorem addrOf_toNat (st : SetIdx) (tg : Tag) : (addrOf st tg).toNat = st.toNat * 2048 + tg.toNat := by
  simp only [addrOf, BitVec.toNat_append]
  rw [← Nat.shiftLeft_add_eq_or_of_lt tg.isLt, Nat.shiftLeft_eq]

@[simp] theorem setIdxOf_addrOf (st : SetIdx) (tg : Tag) : setIdxOf (addrOf st tg) = st := by
  apply BitVec.eq_of_toNat_eq
  have h1 := st.isLt
  have h2 := tg.isLt
  simp only [setIdxOf, BitVec.extractLsb'_toNat, addrOf_toNat, Nat.shiftRight_eq_div_pow]
  omega

@[simp] theorem tagOf_addrOf (st : SetIdx) (tg : Tag) : tagOf (addrOf st tg) = tg := by
  apply BitVec.eq_of_toNat_eq
  have h2 := tg.isLt
  simp only [tagOf, BitVec.extractLsb'_toNat, addrOf_toNat, Nat.shiftRight_eq_div_pow]
  omega

/-! ### Sets and ways after an update -/

theorem cacheSet_setCacheSet (s : State) (st st' : SetIdx) (c : CacheSet) :
    cacheSet (setCacheSet s st c) st' = if st' = st then c else cacheSet s st' := by
  by_cases h : st' = st
  · subst h; simp [cacheSet, setCacheSet]
  · have hne : ¬ st.toNat = st'.toNat := fun e => h (BitVec.eq_of_toNat_eq e.symm)
    simp [cacheSet, setCacheSet, h, hne]

theorem wayOf_setWay (c : CacheSet) (w w' : WayIdx) (y : Way) :
    wayOf (setWay c w y) w' = if w' = w then y else wayOf c w' := by
  by_cases h : w' = w
  · subst h; simp [wayOf, setWay]
  · have hne : ¬ w.toNat = w'.toNat := fun e => h (BitVec.eq_of_toNat_eq e.symm)
    simp [wayOf, setWay, h, hne]

@[simp] theorem setWay_plru (c : CacheSet) (w : WayIdx) (y : Way) : (setWay c w y).plru = c.plru := rfl

@[simp] theorem cacheSet_emit (s : State) (e : Event) (st : SetIdx) : cacheSet (emit s e) st = cacheSet s st := rfl

@[simp] theorem cacheSet_writeRam (s : State) (a : Addr) (v : Word) (st : SetIdx) :
    cacheSet (writeRam s a v) st = cacheSet s st := rfl

@[simp] theorem emitIfData_fetch (s : State) (e : Event) : emitIfData .fetch s e = s := rfl

@[simp] theorem emitIfData_data (s : State) (e : Event) : emitIfData .data s e = emit s e := rfl

@[simp] theorem cacheSet_emitIfData (k : AccessKind) (s : State) (e : Event) (st : SetIdx) :
    cacheSet (emitIfData k s e) st = cacheSet s st := by cases k <;> rfl

/-- A touch changes no way. -/
@[simp] theorem wayOf_touchWay (s : State) (st st' : SetIdx) (w w' : WayIdx) :
    wayOf (cacheSet (touchWay s st w) st') w' = wayOf (cacheSet s st') w' := by
  rw [touchWay, cacheSet_setCacheSet]
  split
  · rename_i h; subst h; rfl
  · rfl

theorem plru_touchWay (s : State) (st st' : SetIdx) (w : WayIdx) :
    (cacheSet (touchWay s st w) st').plru =
      if st' = st then touch (cacheSet s st').plru w else (cacheSet s st').plru := by
  rw [touchWay, cacheSet_setCacheSet]
  split
  · rename_i h; subst h; rfl
  · rfl

theorem wayOf_fillWay (s : State) (st st' : SetIdx) (w w' : WayIdx) (tg : Tag) (v : Word) :
    wayOf (cacheSet (fillWay s st w tg v) st') w' =
      if st' = st ∧ w' = w then { valid := true, tag := tg, value := v } else wayOf (cacheSet s st') w' := by
  rw [fillWay, cacheSet_setCacheSet]
  by_cases h : st' = st
  · subst h; simp [wayOf_setWay]
  · simp [h]

@[simp] theorem plru_fillWay (s : State) (st st' : SetIdx) (w : WayIdx) (tg : Tag) (v : Word) :
    (cacheSet (fillWay s st w tg v) st').plru = (cacheSet s st').plru := by
  rw [fillWay, cacheSet_setCacheSet]
  split
  · rename_i h; subst h; rfl
  · rfl

/-- Two caches with the same ways and the same PLRU bits everywhere are the same. -/
theorem cache_ext {s t : State} (hw : ∀ st w, wayOf (cacheSet s st) w = wayOf (cacheSet t st) w)
    (hb : ∀ st, (cacheSet s st).plru = (cacheSet t st).plru) : s.cache = t.cache := by
  apply Vector.ext
  intro k hk
  have hk' : k < 2 ^ 5 := hk
  have hn : (BitVec.ofNat 5 k).toNat = k := by simp only [BitVec.toNat_ofNat]; omega
  have hset : cacheSet s (BitVec.ofNat 5 k) = cacheSet t (BitVec.ofNat 5 k) := by
    have hways : (cacheSet s (BitVec.ofNat 5 k)).ways = (cacheSet t (BitVec.ofNat 5 k)).ways := by
      apply Vector.ext
      intro j hj
      have hm : (BitVec.ofNat 3 j).toNat = j := by
        have : j < 2 ^ 3 := hj
        simp only [BitVec.toNat_ofNat]; omega
      have := hw (BitVec.ofNat 5 k) (BitVec.ofNat 3 j)
      simpa only [wayOf, hm] using this
    have := hb (BitVec.ofNat 5 k)
    revert hways this
    cases cacheSet s (BitVec.ofNat 5 k)
    cases cacheSet t (BitVec.ofNat 5 k)
    intro h1 h2
    simp only at h1 h2
    rw [h1, h2]
  simpa only [cacheSet, hn] using hset

/-! ### The lookup -/

theorem mem_allWays (w : WayIdx) : w ∈ allWays := by
  revert w; decide

/-- A hit names a valid way with the tag. -/
theorem lookup_some {c : CacheSet} {tg : Tag} {w : WayIdx} (h : lookup c tg = some w) :
    (wayOf c w).valid = true ∧ (wayOf c w).tag = tg := by
  have := List.find?_some h
  simpa using this

/-- A miss: no valid way has the tag. -/
theorem lookup_none {c : CacheSet} {tg : Tag} :
    lookup c tg = none ↔ ∀ w, (wayOf c w).valid = true → (wayOf c w).tag ≠ tg := by
  rw [lookup, List.find?_eq_none]
  constructor
  · intro h w hv ht
    exact h w (mem_allWays w) (by simp [hv, ht])
  · intro h w _ hw
    simp only [Bool.and_eq_true, beq_iff_eq] at hw
    exact h w hw.1 hw.2

/-- Where tags are unique, any valid way with the tag is the one the lookup names. -/
theorem lookup_eq_some {s : State} (hu : UniqueTags s) {st : SetIdx} {tg : Tag} {w : WayIdx}
    (hv : (wayOf (cacheSet s st) w).valid = true) (ht : (wayOf (cacheSet s st) w).tag = tg) :
    lookup (cacheSet s st) tg = some w := by
  cases h : lookup (cacheSet s st) tg with
  | none => exact absurd ht (lookup_none.1 h w hv)
  | some w' =>
    obtain ⟨hv', ht'⟩ := lookup_some h
    rw [hu st w' w hv' hv (ht'.trans ht.symm)]

end Sys2Proof.Machine
end

