-- ==== Sys2Proof/Laws/Memory.lean ====
section
/-! SUPPORT. RAM: a read after a write, and that every operation keeps the canonical form. -/

namespace Sys2Proof.Machine

@[simp] theorem readCell_nil (a : Nat) : Memory.readCell [] a = unlistedWord := rfl

theorem readCell_cons (b a : Nat) (v : Word) (m : Memory) :
    Memory.readCell ((b, v) :: m) a = if b = a then v else Memory.readCell m a := rfl

/-- An address below every listed one is not listed. -/
theorem readCell_below {m : Memory} {a : Nat} (h : ∀ p ∈ m, a < p.1) : Memory.readCell m a = unlistedWord := by
  induction m with
  | nil => rfl
  | cons p m ih =>
    obtain ⟨b, v⟩ := p
    have hb : a < b := h (b, v) (by simp)
    rw [readCell_cons, if_neg (by omega), ih (fun q hq => h q (by simp [hq]))]

theorem mem_putCell {m : Memory} {a : Nat} {v : Word} {p : Nat × Word} (h : p ∈ Memory.putCell a v m) :
    p = (a, v) ∨ p ∈ m := by
  induction m with
  | nil => simpa [Memory.putCell] using h
  | cons q m ih =>
    obtain ⟨b, x⟩ := q
    unfold Memory.putCell at h
    split at h
    · simpa using h
    · split at h
      · simp only [List.mem_cons] at h ⊢; tauto
      · simp only [List.mem_cons] at h ⊢
        rcases h with h | h
        · tauto
        · have := ih h; tauto

theorem mem_dropCell {m : Memory} {a : Nat} {p : Nat × Word} (h : p ∈ Memory.dropCell a m) : p ∈ m := by
  induction m with
  | nil => exact h
  | cons q m ih =>
    obtain ⟨b, x⟩ := q
    unfold Memory.dropCell at h
    split at h
    · simp [h]
    · simp only [List.mem_cons] at h ⊢
      rcases h with h | h
      · exact .inl h
      · exact .inr (ih h)

theorem pairwise_putCell {m : Memory} (a : Nat) (v : Word) (h : m.Pairwise (fun p q => p.1 < q.1)) :
    (Memory.putCell a v m).Pairwise (fun p q => p.1 < q.1) := by
  induction m with
  | nil => simp [Memory.putCell]
  | cons q m ih =>
    obtain ⟨b, x⟩ := q
    rw [List.pairwise_cons] at h
    unfold Memory.putCell
    split
    · rename_i hab
      refine List.pairwise_cons.2 ⟨?_, List.pairwise_cons.2 h⟩
      intro p hp
      rcases List.mem_cons.1 hp with rfl | hp
      · exact hab
      · exact Nat.lt_trans hab (h.1 p hp)
    · split
      · rename_i _ hab
        subst hab
        exact List.pairwise_cons.2 h
      · rename_i h1 h2
        refine List.pairwise_cons.2 ⟨?_, ih h.2⟩
        intro p hp
        rcases mem_putCell hp with rfl | hp
        · show b < a; omega
        · exact h.1 p hp

theorem pairwise_dropCell {m : Memory} (a : Nat) (h : m.Pairwise (fun p q => p.1 < q.1)) :
    (Memory.dropCell a m).Pairwise (fun p q => p.1 < q.1) := by
  induction m with
  | nil => exact h
  | cons q m ih =>
    obtain ⟨b, x⟩ := q
    rw [List.pairwise_cons] at h
    unfold Memory.dropCell
    split
    · exact h.2
    · exact List.pairwise_cons.2 ⟨fun p hp => h.1 p (mem_dropCell hp), ih h.2⟩

theorem readCell_putCell (m : Memory) (a b : Nat) (v : Word) :
    Memory.readCell (Memory.putCell a v m) b = if b = a then v else Memory.readCell m b := by
  induction m with
  | nil => by_cases h : a = b <;> simp [Memory.putCell, readCell_cons, h, eq_comm]
  | cons q m ih =>
    obtain ⟨c, x⟩ := q
    unfold Memory.putCell
    split
    · by_cases h : a = b <;> simp [readCell_cons, h, eq_comm]
    · split
      · rename_i _ hac
        subst hac
        by_cases h : a = b <;> simp [readCell_cons, h, eq_comm]
      · rename_i h1 h2
        rw [readCell_cons, readCell_cons, ih]
        by_cases h : c = b
        · subst h; simp [Ne.symm h2]
        · simp [h]

theorem readCell_dropCell {m : Memory} (h : m.Pairwise (fun p q => p.1 < q.1)) (a b : Nat) :
    Memory.readCell (Memory.dropCell a m) b = if b = a then unlistedWord else Memory.readCell m b := by
  induction m with
  | nil => simp [Memory.dropCell]
  | cons q m ih =>
    obtain ⟨c, x⟩ := q
    rw [List.pairwise_cons] at h
    unfold Memory.dropCell
    split
    · rename_i hac
      subst hac
      rw [readCell_cons]
      by_cases hb : b = a
      · subst hb; simp [readCell_below h.1]
      · simp [hb, Ne.symm hb]
    · rename_i hac
      rw [readCell_cons, readCell_cons, ih h.2]
      by_cases hc : c = b
      · subst hc; simp [Ne.symm hac]
      · simp [hc]

/-- The canonical form is kept by a write. -/
theorem write_wf {m : Memory} (h : m.wf) (a : Addr) (v : Word) : (m.write a v).wf := by
  unfold Memory.write
  split
  · exact ⟨pairwise_dropCell _ h.1, fun p hp => h.2 p (mem_dropCell hp)⟩
  · rename_i hv
    refine ⟨pairwise_putCell _ _ h.1, fun p hp => ?_⟩
    rcases mem_putCell hp with rfl | hp
    · exact ⟨a.isLt, hv⟩
    · exact h.2 p hp

/-- All a read can give after a write. -/
theorem read_write {m : Memory} (h : m.wf) (a b : Addr) (v : Word) :
    (m.write a v).read b = if b = a then v else m.read b := by
  have hab : b.toNat = a.toNat ↔ b = a := BitVec.toNat_inj
  unfold Memory.write Memory.read
  split
  · rename_i hv
    rw [readCell_dropCell h.1, hv]
    simp only [hab]
  · rw [readCell_putCell]
    simp only [hab]

theorem nil_wf : Memory.wf [] := by decide

/-- The canonical form is kept by loading an image. -/
theorem loadFrom_wf (image : List Word) : ∀ (base : Nat) {m : Memory}, m.wf → (Memory.loadFrom base image m).wf := by
  induction image with
  | nil => intro _ _ h; exact h
  | cons w ws ih => intro base m h; exact ih (base + 1) (write_wf h _ _)

/-- What RAM holds after loading an image that fits: the image, and elsewhere what it held. -/
theorem read_loadFrom (image : List Word) : ∀ (base : Nat) {m : Memory}, m.wf → base + image.length ≤ 65536 →
    ∀ a : Addr, (Memory.loadFrom base image m).read a =
      if base ≤ a.toNat then (image[a.toNat - base]?).getD (m.read a) else m.read a := by
  induction image with
  | nil => intro base m _ _ a; simp [Memory.loadFrom]
  | cons w ws ih =>
    intro base m h hlen a
    simp only [List.length_cons] at hlen
    rw [Memory.loadFrom, ih (base + 1) (write_wf h _ _) (by omega) a, read_write h]
    have hbase : (BitVec.ofNat 16 base).toNat = base := by simp only [BitVec.toNat_ofNat]; omega
    have heq : a = BitVec.ofNat 16 base ↔ a.toNat = base := by rw [← BitVec.toNat_inj, hbase]
    by_cases h1 : base + 1 ≤ a.toNat
    · have h2 : a.toNat - base = (a.toNat - (base + 1)) + 1 := by omega
      have h3 : ¬ a = BitVec.ofNat 16 base := by rw [heq]; omega
      have h4 : base ≤ a.toNat := by omega
      rw [if_pos h1, if_pos h4, h2, List.getElem?_cons_succ, if_neg h3]
    · by_cases h4 : a.toNat = base
      · simp [h4, heq]
      · have h3 : ¬ a = BitVec.ofNat 16 base := by rw [heq]; exact h4
        have h5 : ¬ base ≤ a.toNat := by omega
        rw [if_neg h1, if_neg h5, if_neg h3]

/-- Canonical memories that read the same everywhere are the same list. -/
theorem memory_ext : ∀ {m m' : Memory}, m.wf → m'.wf → (∀ a : Addr, m.read a = m'.read a) → m = m' := by
  have key : ∀ {m : Memory}, m.wf → ∀ p ∈ m, Memory.readCell m p.1 = p.2 := by
    intro m h
    induction m with
    | nil => intro p hp; simp at hp
    | cons q m ih =>
      obtain ⟨b, x⟩ := q
      intro p hp
      rcases List.mem_cons.1 hp with rfl | hp
      · simp [readCell_cons]
      · have hlt := (List.pairwise_cons.1 h.1).1 p hp
        rw [readCell_cons, if_neg (by show ¬ b = p.1; exact Nat.ne_of_lt hlt)]
        exact ih ⟨(List.pairwise_cons.1 h.1).2, fun q hq => h.2 q (by simp [hq])⟩ p hp
  intro m m' h h' hr
  have cell : ∀ k, k < 65536 → Memory.readCell m k = Memory.readCell m' k := by
    intro k hk
    have := hr (BitVec.ofNat 16 k)
    have hn : (BitVec.ofNat 16 k).toNat = k := by simp only [BitVec.toNat_ofNat]; omega
    simpa [Memory.read, hn] using this
  clear hr
  induction m generalizing m' with
  | nil =>
    cases m' with
    | nil => rfl
    | cons q m' =>
      have hb := h'.2 q (by simp)
      have := cell q.1 hb.1
      rw [key h' q (by simp)] at this
      exact absurd this.symm hb.2
  | cons p m ih =>
    have hp := h.2 p (by simp)
    have hpc := List.pairwise_cons.1 h.1
    cases m' with
    | nil =>
      have := cell p.1 hp.1
      rw [key h p (by simp)] at this
      exact absurd this hp.2
    | cons q m' =>
      have hq := h'.2 q (by simp)
      have hqc := List.pairwise_cons.1 h'.1
      have hlt1 : ¬ p.1 < q.1 := by
        intro hlt
        have := cell p.1 hp.1
        rw [key h p (by simp), readCell_below (m := q :: m')] at this
        · exact hp.2 this
        · intro r hr
          rcases List.mem_cons.1 hr with rfl | hr
          · exact hlt
          · exact Nat.lt_trans hlt (hqc.1 r hr)
      have hlt2 : ¬ q.1 < p.1 := by
        intro hlt
        have := cell q.1 hq.1
        rw [key h' q (by simp), readCell_below (m := p :: m)] at this
        · exact hq.2 this.symm
        · intro r hr
          rcases List.mem_cons.1 hr with rfl | hr
          · exact hlt
          · exact Nat.lt_trans hlt (hpc.1 r hr)
      have heq : p.1 = q.1 := by omega
      have hv : p.2 = q.2 := by
        have := cell p.1 hp.1
        rw [key h p (by simp), heq, key h' q (by simp)] at this
        exact this
      have hpq : p = q := Prod.ext heq hv
      subst hpq
      congr 1
      refine ih ⟨hpc.2, fun r hr => h.2 r (by simp [hr])⟩ ⟨hqc.2, fun r hr => h'.2 r (by simp [hr])⟩ ?_
      intro k hk
      have := cell k hk
      obtain ⟨b, x⟩ := p
      rw [readCell_cons, readCell_cons] at this
      by_cases hbk : b = k
      · subst hbk
        rw [readCell_below hpc.1, readCell_below hqc.1]
      · simpa [hbk] using this

end Sys2Proof.Machine
end

