-- ==== Sys2Proof/Laws/Regs.lean ====
section
/-! SUPPORT. The data registers, the status registers: what a read gives after a write. -/

namespace Sys2Proof.Machine

@[simp] theorem readRegs_zero (rs : Vector Word 30) : readRegs rs 0#5 = 0#32 := rfl

@[simp] theorem readRegs_one (rs : Vector Word 30) : readRegs rs 1#5 = 1#32 := rfl

theorem index_two_le {i : RegIdx} : 2 ≤ i.toNat ↔ i ≠ 0#5 ∧ i ≠ 1#5 := by
  revert i; decide

theorem readRegs_stored (rs : Vector Word 30) (i : RegIdx) (h : 2 ≤ i.toNat) :
    readRegs rs i = rs[i.toNat - 2]'(by have := i.isLt; omega) := by
  simp [readRegs, h]

theorem writeRegs_hardwired (rs : Vector Word 30) (i : RegIdx) (v : Word) (h : i = 0#5 ∨ i = 1#5) :
    writeRegs rs i v = rs := by
  rcases h with rfl | rfl <;> rfl

/-- All a register read can give after a register write. -/
theorem readRegs_writeRegs (rs : Vector Word 30) (i j : RegIdx) (v : Word) :
    readRegs (writeRegs rs i v) j = if j = 0#5 then 0#32 else if j = 1#5 then 1#32 else if j = i then v else readRegs rs j := by
  by_cases h0 : j = 0#5
  · subst h0; simp
  by_cases h1 : j = 1#5
  · subst h1; simp
  have hj : 2 ≤ j.toNat := index_two_le.2 ⟨h0, h1⟩
  simp only [h0, h1, if_false]
  by_cases hi : 2 ≤ i.toNat
  · by_cases hji : j = i
    · subst hji; simp [readRegs, writeRegs, hj]
    · have hne : ¬ i.toNat - 2 = j.toNat - 2 := by
        intro h; apply hji; apply BitVec.eq_of_toNat_eq; omega
      simp [readRegs, writeRegs, hj, hi, hji, hne]
  · have hji : j ≠ i := by rintro rfl; exact hi hj
    simp [writeRegs, hi, hji]

theorem readReg_writeReg (s : State) (i j : RegIdx) (v : Word) :
    readReg (writeReg s i v) j = if j = 0#5 then 0#32 else if j = 1#5 then 1#32 else if j = i then v else readReg s j :=
  readRegs_writeRegs s.regs i j v

theorem writeReg_hardwired (s : State) (i : RegIdx) (v : Word) (h : i = 0#5 ∨ i = 1#5) : writeReg s i v = s := by
  rw [writeReg, writeRegs_hardwired _ _ _ h]

/-- Two register files that read the same at every index are the same. -/
theorem regs_ext {rs rs' : Vector Word 30} (h : ∀ i, readRegs rs i = readRegs rs' i) : rs = rs' := by
  apply Vector.ext
  intro k hk
  have hlt : k + 2 < 2 ^ 5 := by omega
  have := h (BitVec.ofNat 5 (k + 2))
  have hn : (BitVec.ofNat 5 (k + 2)).toNat = k + 2 := by simp only [BitVec.toNat_ofNat]; omega
  rw [readRegs_stored _ _ (by omega), readRegs_stored _ _ (by omega)] at this
  simpa [hn] using this

theorem readStatus_writeStatus (s : State) (i j : StatIdx) (b : Bool) :
    readStatus (writeStatus s i b) j = if j = i then b else readStatus s j := by
  by_cases h : j = i
  · subst h; simp [readStatus, writeStatus]
  · have hne : ¬ i.toNat = j.toNat := fun e => h (BitVec.eq_of_toNat_eq e.symm)
    simp [readStatus, writeStatus, h, hne]

end Sys2Proof.Machine
end

