-- ==== Sys2Proof/Laws/Access.lean ====
section
/-! SUPPORT. The two memory primitives and the fetch: what each leaves unchanged, the way and the bits it writes, the
word it gives, the events it emits, and that each keeps the invariant. -/

namespace Sys2Proof.Machine

/-! ### Fields an access does not touch -/

@[simp] theorem emitIfData_regs (k : AccessKind) (s : State) (e : Event) : (emitIfData k s e).regs = s.regs := by
  cases k <;> rfl
@[simp] theorem emitIfData_status (k : AccessKind) (s : State) (e : Event) : (emitIfData k s e).status = s.status := by
  cases k <;> rfl
@[simp] theorem emitIfData_pc (k : AccessKind) (s : State) (e : Event) : (emitIfData k s e).pc = s.pc := by
  cases k <;> rfl
@[simp] theorem emitIfData_running (k : AccessKind) (s : State) (e : Event) :
    (emitIfData k s e).running = s.running := by cases k <;> rfl
@[simp] theorem emitIfData_fault (k : AccessKind) (s : State) (e : Event) : (emitIfData k s e).fault = s.fault := by
  cases k <;> rfl
@[simp] theorem emitIfData_ram (k : AccessKind) (s : State) (e : Event) : (emitIfData k s e).ram = s.ram := by
  cases k <;> rfl
@[simp] theorem emitIfData_cache (k : AccessKind) (s : State) (e : Event) : (emitIfData k s e).cache = s.cache := by
  cases k <;> rfl

theorem memRead_hit {k : AccessKind} {a : Addr} {s : State} {w : WayIdx}
    (h : lookup (cacheSet s (setIdxOf a)) (tagOf a) = some w) :
    memRead k a s =
      ((wayOf (cacheSet s (setIdxOf a)) w).value, touchWay (emitIfData k s (.hit a)) (setIdxOf a) w) := by
  simp [memRead, h]

theorem memRead_miss {k : AccessKind} {a : Addr} {s : State}
    (h : lookup (cacheSet s (setIdxOf a)) (tagOf a) = none) :
    memRead k a s =
      (s.ram.read a,
        touchWay (emit (fillWay (emitIfData k s (.miss a)) (setIdxOf a) (victim (cacheSet s (setIdxOf a)).plru) (tagOf a)
          (s.ram.read a)) (.writeCache (setIdxOf a) (victim (cacheSet s (setIdxOf a)).plru))) (setIdxOf a)
          (victim (cacheSet s (setIdxOf a)).plru)) := by
  simp [memRead, h]

/-- A write ends the same way whether it hits or misses, but for the event it reports. -/
theorem memWrite_eq (a : Addr) (v : Word) (s : State) :
    memWrite a v s =
      touchWay (emit (writeRam (fillWay (emit s (if (lookup (cacheSet s (setIdxOf a)) (tagOf a)).isSome then .hit a
        else .miss a)) (setIdxOf a) (accessWay a s) (tagOf a) v) a v) (.writeCache (setIdxOf a) (accessWay a s))) (setIdxOf a)
        (accessWay a s) := by
  unfold memWrite accessWay
  cases lookup (cacheSet s (setIdxOf a)) (tagOf a) <;> rfl

/-- A read touches only the cache, the trace and the tracker. -/
theorem memRead_frame (k : AccessKind) (a : Addr) (s : State) :
    (memRead k a s).2.regs = s.regs ∧ (memRead k a s).2.status = s.status ∧ (memRead k a s).2.pc = s.pc ∧
    (memRead k a s).2.running = s.running ∧ (memRead k a s).2.fault = s.fault ∧ (memRead k a s).2.ram = s.ram := by
  cases h : lookup (cacheSet s (setIdxOf a)) (tagOf a) with
  | some w => simp [memRead_hit h]
  | none => simp [memRead_miss h]

@[simp] theorem memRead_regs (k : AccessKind) (a : Addr) (s : State) : (memRead k a s).2.regs = s.regs :=
  (memRead_frame k a s).1
@[simp] theorem memRead_status (k : AccessKind) (a : Addr) (s : State) : (memRead k a s).2.status = s.status :=
  (memRead_frame k a s).2.1
@[simp] theorem memRead_pc (k : AccessKind) (a : Addr) (s : State) : (memRead k a s).2.pc = s.pc :=
  (memRead_frame k a s).2.2.1
@[simp] theorem memRead_running (k : AccessKind) (a : Addr) (s : State) : (memRead k a s).2.running = s.running :=
  (memRead_frame k a s).2.2.2.1
@[simp] theorem memRead_fault (k : AccessKind) (a : Addr) (s : State) : (memRead k a s).2.fault = s.fault :=
  (memRead_frame k a s).2.2.2.2.1
@[simp] theorem memRead_ram (k : AccessKind) (a : Addr) (s : State) : (memRead k a s).2.ram = s.ram :=
  (memRead_frame k a s).2.2.2.2.2

@[simp] theorem memWrite_regs (a : Addr) (v : Word) (s : State) : (memWrite a v s).regs = s.regs := by
  rw [memWrite_eq]; rfl
@[simp] theorem memWrite_status (a : Addr) (v : Word) (s : State) : (memWrite a v s).status = s.status := by
  rw [memWrite_eq]; rfl
@[simp] theorem memWrite_pc (a : Addr) (v : Word) (s : State) : (memWrite a v s).pc = s.pc := by
  rw [memWrite_eq]; rfl
@[simp] theorem memWrite_running (a : Addr) (v : Word) (s : State) : (memWrite a v s).running = s.running := by
  rw [memWrite_eq]; rfl
@[simp] theorem memWrite_fault (a : Addr) (v : Word) (s : State) : (memWrite a v s).fault = s.fault := by
  rw [memWrite_eq]; rfl
@[simp] theorem memWrite_ram (a : Addr) (v : Word) (s : State) : (memWrite a v s).ram = s.ram.write a v := by
  rw [memWrite_eq]; rfl

@[simp] theorem fetch_regs (s : State) : (fetch s).2.regs = s.regs := by simp [fetch]
@[simp] theorem fetch_status (s : State) : (fetch s).2.status = s.status := by simp [fetch]
@[simp] theorem fetch_pc (s : State) : (fetch s).2.pc = s.pc := by simp [fetch]
@[simp] theorem fetch_running (s : State) : (fetch s).2.running = s.running := by simp [fetch]
@[simp] theorem fetch_fault (s : State) : (fetch s).2.fault = s.fault := by simp [fetch]
@[simp] theorem fetch_ram (s : State) : (fetch s).2.ram = s.ram := by simp [fetch]

/-! ### The ways and bits an access writes -/

/-- The ways after a read: on a miss the victim holds the address and RAM's word, every other way is as before. -/
theorem wayOf_memRead (k : AccessKind) (a : Addr) (s : State) (st : SetIdx) (w : WayIdx) :
    wayOf (cacheSet (memRead k a s).2 st) w =
      if lookup (cacheSet s (setIdxOf a)) (tagOf a) = none ∧ st = setIdxOf a ∧ w = accessWay a s then
        { valid := true, tag := tagOf a, value := s.ram.read a }
      else wayOf (cacheSet s st) w := by
  cases h : lookup (cacheSet s (setIdxOf a)) (tagOf a) with
  | some w' => simp [memRead_hit h]
  | none => simp [memRead_miss h, wayOf_fillWay, accessWay, h]

/-- The ways after a write: the way of the access holds the address and the word, every other way is as before. -/
theorem wayOf_memWrite (a : Addr) (v : Word) (s : State) (st : SetIdx) (w : WayIdx) :
    wayOf (cacheSet (memWrite a v s) st) w =
      if st = setIdxOf a ∧ w = accessWay a s then { valid := true, tag := tagOf a, value := v }
      else wayOf (cacheSet s st) w := by
  rw [memWrite_eq]; simp [wayOf_fillWay]

theorem plru_memRead (k : AccessKind) (a : Addr) (s : State) (st : SetIdx) :
    (cacheSet (memRead k a s).2 st).plru =
      if st = setIdxOf a then touch (cacheSet s st).plru (accessWay a s) else (cacheSet s st).plru := by
  cases h : lookup (cacheSet s (setIdxOf a)) (tagOf a) with
  | some w' => simp [memRead_hit h, plru_touchWay, accessWay, h]
  | none => simp [memRead_miss h, plru_touchWay, accessWay, h]

theorem plru_memWrite (a : Addr) (v : Word) (s : State) (st : SetIdx) :
    (cacheSet (memWrite a v s) st).plru =
      if st = setIdxOf a then touch (cacheSet s st).plru (accessWay a s) else (cacheSet s st).plru := by
  rw [memWrite_eq]; simp [plru_touchWay]

/-! ### The events an access emits -/

theorem memRead_trace (a : Addr) (s : State) : (memRead .data a s).2.trace = s.trace ++ readEvents a s := by
  unfold readEvents
  cases h : lookup (cacheSet s (setIdxOf a)) (tagOf a) with
  | some w => simp [memRead_hit h]
  | none => simp [memRead_miss h]

theorem memWrite_trace (a : Addr) (v : Word) (s : State) :
    (memWrite a v s).trace = s.trace ++ writeEvents a s := by
  unfold writeEvents
  rw [memWrite_eq]
  unfold accessWay
  cases h : lookup (cacheSet s (setIdxOf a)) (tagOf a) <;> simp

theorem fetch_trace (s : State) : (fetch s).2.trace = s.trace ++ fetchEvents s := by
  unfold fetchEvents fetch
  cases h : lookup (cacheSet s (setIdxOf s.pc)) (tagOf s.pc) with
  | some w => rw [memRead_hit (by simpa using h)]; simp
  | none => rw [memRead_miss (by simpa using h)]; simp

/-- A state is followed by its tracker: the tracker has observed exactly the events between. -/
def Observed (s t : State) (es : List Event) : Prop :=
  t.trace = s.trace ++ es ∧ t.tracker = es.foldl observe s.tracker

theorem observed_memRead (a : Addr) (s : State) : Observed s (memRead .data a s).2 (readEvents a s) := by
  refine ⟨memRead_trace a s, ?_⟩
  unfold readEvents
  cases h : lookup (cacheSet s (setIdxOf a)) (tagOf a) with
  | some w => simp [memRead_hit h]
  | none => simp [memRead_miss h]

theorem observed_memWrite (a : Addr) (v : Word) (s : State) : Observed s (memWrite a v s) (writeEvents a s) := by
  refine ⟨memWrite_trace a v s, ?_⟩
  unfold writeEvents
  rw [memWrite_eq]
  unfold accessWay
  cases h : lookup (cacheSet s (setIdxOf a)) (tagOf a) <;> simp

theorem observed_fetch (s : State) : Observed s (fetch s).2 (fetchEvents s) := by
  refine ⟨fetch_trace s, ?_⟩
  unfold fetchEvents fetch
  cases h : lookup (cacheSet s (setIdxOf s.pc)) (tagOf s.pc) with
  | some w => rw [memRead_hit (by simpa using h)]; simp
  | none => rw [memRead_miss (by simpa using h)]; simp

theorem Observed.trans {s t u : State} {es fs : List Event} (h : Observed s t es) (h' : Observed t u fs) :
    Observed s u (es ++ fs) := by
  refine ⟨?_, ?_⟩
  · rw [h'.1, h.1, List.append_assoc]
  · rw [h'.2, h.2, List.foldl_append]

/-! ### What an access depends on: the cache and RAM, never the trace, the tracker or a register -/

theorem readEvents_congr {s s' : State} (hc : s'.cache = s.cache) (a : Addr) : readEvents a s' = readEvents a s := by
  unfold readEvents; rw [cacheSet_congr hc]

theorem writeEvents_congr {s s' : State} (hc : s'.cache = s.cache) (a : Addr) :
    writeEvents a s' = writeEvents a s := by
  unfold writeEvents; rw [cacheSet_congr hc]

theorem fetchEvents_congr {s s' : State} (hc : s'.cache = s.cache) (hp : s'.pc = s.pc) :
    fetchEvents s' = fetchEvents s := by
  unfold fetchEvents; rw [cacheSet_congr hc, hp]

theorem memRead_congr {s s' : State} (hc : s'.cache = s.cache) (hm : s'.ram = s.ram) (k : AccessKind) (a : Addr) :
    (memRead k a s').1 = (memRead k a s).1 ∧ (memRead k a s').2.cache = (memRead k a s).2.cache := by
  have hs := cacheSet_congr hc
  cases h : lookup (cacheSet s (setIdxOf a)) (tagOf a) with
  | some w =>
    rw [memRead_hit h, memRead_hit (s := s') (by rw [hs]; exact h), hs]
    exact ⟨rfl, by simp only [touchWay, setCacheSet, cacheSet, emitIfData_cache, hc]⟩
  | none =>
    rw [memRead_miss h, memRead_miss (s := s') (by rw [hs]; exact h), hs, hm]
    exact ⟨rfl, by simp only [touchWay, setCacheSet, fillWay, emit, cacheSet, emitIfData_cache, hc]⟩

theorem memWrite_cache_congr {s s' : State} (hc : s'.cache = s.cache) (a : Addr) (v : Word) :
    (memWrite a v s').cache = (memWrite a v s).cache := by
  have hs := cacheSet_congr hc
  have ha : accessWay a s' = accessWay a s := by unfold accessWay; rw [hs]
  rw [memWrite_eq, memWrite_eq, ha]
  simp only [touchWay, setCacheSet, fillWay, emit, writeRam, cacheSet, hc]

theorem fetch_congr {s s' : State} (hc : s'.cache = s.cache) (hm : s'.ram = s.ram) (hp : s'.pc = s.pc) :
    (fetch s').1 = (fetch s).1 ∧ (fetch s').2.cache = (fetch s).2.cache := by
  unfold fetch
  rw [hp]
  exact memRead_congr (s := emit s (.fetch s.pc)) (s' := emit s' (.fetch s.pc)) hc hm .fetch s.pc

/-! ### The word a read gives -/

/-- A read gives RAM's word in a coherent state. -/
theorem memRead_value {s : State} (hc : Coherent s) (k : AccessKind) (a : Addr) : (memRead k a s).1 = s.ram.read a := by
  cases h : lookup (cacheSet s (setIdxOf a)) (tagOf a) with
  | some w =>
    obtain ⟨hv, ht⟩ := lookup_some h
    rw [memRead_hit h, hc (setIdxOf a) w hv, ht, addrOf_split]
  | none => rw [memRead_miss h]

theorem fetch_value {s : State} (hc : Coherent s) : (fetch s).1 = s.ram.read s.pc :=
  memRead_value (s := emit s (.fetch s.pc)) hc .fetch s.pc

/-! ### The invariant -/

theorem inv_congr {s t : State} (hi : Inv s) (hm : t.ram = s.ram) (hc : t.cache = s.cache)
    (hl : LatchStops t) (hw : t.tracker.wf)
    (hs : ∀ p ∈ s.tracker.uniqueCacheLocations, p ∈ t.tracker.uniqueCacheLocations) : Inv t where
  memory := hm ▸ hi.memory
  coherent st w := by rw [cacheSet_congr hc, hm]; exact hi.coherent st w
  unique st w w' := by rw [cacheSet_congr hc]; exact hi.unique st w w'
  latch := hl
  sets := hw
  live st w := by rw [cacheSet_congr hc]; exact fun h => hs _ (hi.live st w h)

/-- An update that only replaces registers, status bits or pc keeps the invariant. -/
theorem inv_of_same {s t : State} (hi : Inv s) (hm : t.ram = s.ram) (hc : t.cache = s.cache)
    (hr : t.running = s.running) (hf : t.fault = s.fault) (ht : t.tracker = s.tracker) : Inv t :=
  inv_congr hi hm hc (by rw [LatchStops, hr, hf]; exact hi.latch) (ht ▸ hi.sets) (by rw [ht]; exact fun _ h => h)

theorem inv_emit {s : State} (hi : Inv s) (e : Event) : Inv (emit s e) :=
  inv_congr hi rfl rfl hi.latch (observe_wf hi.sets e) (fun _ h => mem_observe_locations.2 (.inr h))

theorem inv_emitIfData {s : State} (hi : Inv s) (k : AccessKind) (e : Event) : Inv (emitIfData k s e) := by
  cases k with
  | fetch => exact hi
  | data => exact inv_emit hi e

/-- What any access does to the ways: one way of the set of `a`, the one that held `a` if one did, ends up with `a` and
the word RAM then holds. -/
theorem inv_access {s t : State} {a : Addr} {v : Word} {w : WayIdx} (hi : Inv s)
    (hw : lookup (cacheSet s (setIdxOf a)) (tagOf a) = some w ∨ lookup (cacheSet s (setIdxOf a)) (tagOf a) = none)
    (hway : ∀ st w', wayOf (cacheSet t st) w' =
      if st = setIdxOf a ∧ w' = w then { valid := true, tag := tagOf a, value := v } else wayOf (cacheSet s st) w')
    (hwf : t.ram.wf) (hread : ∀ b, t.ram.read b = if b = a then v else s.ram.read b)
    (hr : t.running = s.running) (hf : t.fault = s.fault) (hsets : t.tracker.wf)
    (hlive : ∀ p, p = (setIdxOf a, w) ∨ p ∈ s.tracker.uniqueCacheLocations → p ∈ t.tracker.uniqueCacheLocations) :
    Inv t := by
  have other : ∀ w', w' ≠ w → (wayOf (cacheSet s (setIdxOf a)) w').valid = true →
      (wayOf (cacheSet s (setIdxOf a)) w').tag ≠ tagOf a := by
    intro w' hne hv htag
    rcases hw with hw | hw
    · obtain ⟨hv2, ht2⟩ := lookup_some hw
      exact hne (hi.unique _ _ _ hv hv2 (htag.trans ht2.symm))
    · exact lookup_none.1 hw w' hv htag
  refine ⟨hwf, ?_, ?_, ?_, hsets, ?_⟩
  · intro st w'
    rw [hway]
    by_cases hc : st = setIdxOf a ∧ w' = w
    · obtain ⟨rfl, rfl⟩ := hc; simp [hread]
    · rw [if_neg hc, hread]
      intro hv
      have hne : addrOf st (wayOf (cacheSet s st) w').tag ≠ a := by
        intro heq
        have hst : st = setIdxOf a := by rw [← heq, setIdxOf_addrOf]
        subst hst
        refine other w' (fun e => hc ⟨rfl, e⟩) hv ?_
        conv_rhs => rw [← heq]
        rw [tagOf_addrOf]
      rw [if_neg hne]
      exact hi.coherent st w' hv
  · intro st w1 w2
    rw [hway, hway]
    by_cases hst : st = setIdxOf a
    · subst hst
      by_cases h1 : w1 = w <;> by_cases h2 : w2 = w
      · intros; exact h1.trans h2.symm
      · simp only [h1, h2, and_self, and_false, if_true, if_false]
        intro _ hv ht
        exact absurd ht.symm (other w2 h2 hv)
      · simp only [h1, h2, and_self, and_false, if_true, if_false]
        intro hv _ ht
        exact absurd ht (other w1 h1 hv)
      · simp only [h1, h2, and_false, if_false]
        exact hi.unique _ _ _
    · simp only [hst, false_and, if_false]
      exact hi.unique _ _ _
  · rw [LatchStops, hr, hf]; exact hi.latch
  · intro st w'
    rw [hway]
    by_cases hc : st = setIdxOf a ∧ w' = w
    · obtain ⟨rfl, rfl⟩ := hc; intro _; exact hlive _ (.inl rfl)
    · rw [if_neg hc]; intro hv; exact hlive _ (.inr (hi.live st w' hv))

theorem inv_memRead {s : State} (hi : Inv s) (k : AccessKind) (a : Addr) : Inv (memRead k a s).2 := by
  cases h : lookup (cacheSet s (setIdxOf a)) (tagOf a) with
  | some w =>
    obtain ⟨hv, ht⟩ := lookup_some h
    refine inv_access (v := s.ram.read a) hi (.inl h) ?_ (by simpa using hi.memory) ?_ (by simp) (by simp) ?_ ?_
    · intro st w'
      rw [wayOf_memRead]
      by_cases hc : st = setIdxOf a ∧ w' = w
      · obtain ⟨rfl, rfl⟩ := hc
        have := hi.coherent (setIdxOf a) w' hv
        rw [ht, addrOf_split] at this
        simp only [h, reduceCtorEq, false_and, and_self, if_false, if_true]
        rw [← this, ← ht, ← hv]
      · simp [h, hc]
    · intro b; by_cases hb : b = a <;> simp [hb]
    · rw [memRead_hit h]
      exact (inv_emitIfData hi k (.hit a)).sets
    · intro p hp
      have hp' : p ∈ s.tracker.uniqueCacheLocations := by
        rcases hp with rfl | hp
        · exact hi.live _ _ hv
        · exact hp
      rw [memRead_hit h]
      cases k <;> exact hp'
  | none =>
    refine inv_access (v := s.ram.read a) (w := accessWay a s) hi (.inr h) ?_ (by simpa using hi.memory) ?_
      (by simp) (by simp) ?_ ?_
    · intro st w'; rw [wayOf_memRead]; simp [h]
    · intro b; by_cases hb : b = a <;> simp [hb]
    · rw [memRead_miss h]
      exact observe_wf (inv_emitIfData hi k (.miss a)).sets _
    · intro p hp
      rw [memRead_miss h]
      refine mem_observe_locations.2 ?_
      rcases hp with rfl | hp
      · left; simp [accessWay, h]
      · right; cases k <;> exact hp

theorem inv_memWrite {s : State} (hi : Inv s) (a : Addr) (v : Word) : Inv (memWrite a v s) := by
  refine inv_access (v := v) (w := accessWay a s) hi ?_ (wayOf_memWrite a v s) (by simpa using write_wf hi.memory a v)
    ?_ (by simp) (by simp) ?_ ?_
  · unfold accessWay
    cases h : lookup (cacheSet s (setIdxOf a)) (tagOf a) <;> simp
  · intro b; rw [memWrite_ram, read_write hi.memory]
  · rw [memWrite_eq]
    exact observe_wf (observe_wf hi.sets _) _
  · intro p hp
    rw [memWrite_eq]
    refine mem_observe_locations.2 ?_
    rcases hp with rfl | hp
    · exact .inl rfl
    · exact .inr (mem_observe_locations.2 (.inr hp))

theorem inv_fetch {s : State} (hi : Inv s) : Inv (fetch s).2 := inv_memRead (inv_emit hi _) .fetch s.pc

end Sys2Proof.Machine
end

