-- ==== Sys2Proof/Laws/Decode.lean ====
section
/-! SUPPORT. Fields of a joined word, and the small fields inside `arg2` and `data`. -/

namespace Sys2Proof

theorem joinFields_toNat (f : Fields) :
    (joinFields f).toNat = f.op.toNat + f.arg1.toNat * 64 + f.arg2.toNat * 2048 + f.data.toNat * 65536 := by
  have h0 := f.op.isLt
  have h1 := f.arg1.isLt
  have h2 := f.arg2.isLt
  simp only [joinFields, BitVec.toNat_append]
  rw [← Nat.shiftLeft_add_eq_or_of_lt h2, ← Nat.shiftLeft_add_eq_or_of_lt h1, ← Nat.shiftLeft_add_eq_or_of_lt h0]
  simp only [Nat.shiftLeft_eq]
  omega

theorem splitWord_op (w : Word) : (splitWord w).op.toNat = w.toNat % 64 := by
  simp [splitWord, BitVec.extractLsb'_toNat]

theorem splitWord_arg1 (w : Word) : (splitWord w).arg1.toNat = w.toNat / 64 % 32 := by
  simp [splitWord, BitVec.extractLsb'_toNat, Nat.shiftRight_eq_div_pow]

theorem splitWord_arg2 (w : Word) : (splitWord w).arg2.toNat = w.toNat / 2048 % 32 := by
  simp [splitWord, BitVec.extractLsb'_toNat, Nat.shiftRight_eq_div_pow]

theorem splitWord_data (w : Word) : (splitWord w).data.toNat = w.toNat / 65536 := by
  have := w.isLt
  simp only [splitWord, BitVec.extractLsb'_toNat, Nat.shiftRight_eq_div_pow]
  omega

/-- Extracting the fields of a joined word gives them back. -/
@[simp] theorem splitWord_joinFields (f : Fields) : splitWord (joinFields f) = f := by
  have h0 := f.op.isLt
  have h1 := f.arg1.isLt
  have h2 := f.arg2.isLt
  have h3 := f.data.isLt
  have e0 : (splitWord (joinFields f)).op = f.op := by
    apply BitVec.eq_of_toNat_eq; rw [splitWord_op, joinFields_toNat]; omega
  have e1 : (splitWord (joinFields f)).arg1 = f.arg1 := by
    apply BitVec.eq_of_toNat_eq; rw [splitWord_arg1, joinFields_toNat]; omega
  have e2 : (splitWord (joinFields f)).arg2 = f.arg2 := by
    apply BitVec.eq_of_toNat_eq; rw [splitWord_arg2, joinFields_toNat]; omega
  have e3 : (splitWord (joinFields f)).data = f.data := by
    apply BitVec.eq_of_toNat_eq; rw [splitWord_data, joinFields_toNat]; omega
  revert e0 e1 e2 e3
  generalize splitWord (joinFields f) = g
  cases f
  cases g
  intro e0 e1 e2 e3
  simp only at e0 e1 e2 e3
  rw [e0, e1, e2, e3]

/-- The four fields tile the word. -/
@[simp] theorem joinFields_splitWord (w : Word) : joinFields (splitWord w) = w := by
  apply BitVec.eq_of_toNat_eq
  rw [joinFields_toNat, splitWord_op, splitWord_arg1, splitWord_arg2, splitWord_data]
  omega

@[simp] theorem data5_fromData5 (r : BitVec 5) : data5 (fromData5 r) = r := by
  revert r; decide

@[simp] theorem flagsOf_flagsBits (f : Flags) : flagsOf (flagsBits f) = f := by
  obtain ⟨a, b, c, d, e⟩ := f
  cases a <;> cases b <;> cases c <;> cases d <;> cases e <;> rfl

@[simp] theorem flagsBits_flagsOf (a : BitVec 5) : flagsBits (flagsOf a) = a := by
  revert a; decide

@[simp] theorem jmpBits_onHigh (h d : Bool) : (jmpBits h d)[0] = h := by
  cases h <;> cases d <;> rfl

@[simp] theorem jmpBits_dec (h d : Bool) : (jmpBits h d)[1] = d := by
  cases h <;> cases d <;> rfl

theorem data5_splitWord (w : Word) : data5 (splitWord w).data = w.extractLsb' 16 5 := by
  apply BitVec.eq_of_toNat_eq
  simp only [data5, splitWord, BitVec.extractLsb'_toNat, Nat.shiftRight_eq_div_pow]
  omega

theorem flagsOf_splitWord (w : Word) :
    flagsOf (splitWord w).arg2 = ⟨w.getLsbD 11, w.getLsbD 12, w.getLsbD 13, w.getLsbD 14, w.getLsbD 15⟩ := by
  simp [flagsOf, splitWord]

theorem decode_joinFields (f : Fields) : decode (joinFields f) = decodeFields f := by
  rw [decode, splitWord_joinFields]

/-- The fields of `f` are those `i` was read from. -/
def ReadFrom (f : Fields) (i : Instr) : Prop :=
  match i with
  | .nop => True
  | .halt => True
  | .add rd ra rb => rd = data5 f.data ∧ ra = f.arg1 ∧ rb = f.arg2
  | .sub rd ra rb => rd = data5 f.data ∧ ra = f.arg1 ∧ rb = f.arg2
  | .lshift rd ra rb => rd = data5 f.data ∧ ra = f.arg1 ∧ rb = f.arg2
  | .rshift rd ra rb => rd = data5 f.data ∧ ra = f.arg1 ∧ rb = f.arg2
  | .comp sd ra rb => sd = data5 f.data ∧ ra = f.arg1 ∧ rb = f.arg2
  | .compgrt sd ra rb => sd = data5 f.data ∧ ra = f.arg1 ∧ rb = f.arg2
  | .complst sd ra rb => sd = data5 f.data ∧ ra = f.arg1 ∧ rb = f.arg2
  | .load rA fl data => rA = f.arg1 ∧ fl = flagsOf f.arg2 ∧ data = f.data
  | .store rA fl data => rA = f.arg1 ∧ fl = flagsOf f.arg2 ∧ data = f.data
  | .jmp si hi dec disp => si = f.arg1 ∧ hi = f.arg2.getLsbD 0 ∧ dec = f.arg2.getLsbD 1 ∧ disp = f.data
  | .print ra rb data => ra = f.arg1 ∧ rb = f.arg2 ∧ data = f.data

/-- The inversion of `decode`: the opcode is the instruction's and the operands are the fields. -/
theorem decodeFields_some {f : Fields} {i : Instr} (h : decodeFields f = some i) :
    f.op = (encodeFields i).op ∧ ReadFrom f i := by
  unfold decodeFields at h
  split at h <;>
    first
    | (rename_i hop
       obtain rfl := Option.some.inj h
       refine ⟨BitVec.eq_of_toNat_eq hop, ?_⟩
       simp [ReadFrom])
    | cases h

/-- LOAD, STORE and PRINT ignore no bit: the word is the encoding of what it decodes to. -/
theorem encode_of_decode_load {w : Word} {rA : RegIdx} {f : Flags} {data : Addr}
    (h : decode w = some (.load rA f data)) : encode (.load rA f data) = w := by
  obtain ⟨h0, h1, h2, h3⟩ := decodeFields_some h
  rw [encode, encodeFields, h1, h2, h3, flagsBits_flagsOf]
  conv_rhs => rw [← joinFields_splitWord w]
  congr 1
  revert h0
  cases splitWord w
  intro h0
  simp only [encodeFields] at h0
  rw [h0]

theorem encode_of_decode_store {w : Word} {rA : RegIdx} {f : Flags} {data : Addr}
    (h : decode w = some (.store rA f data)) : encode (.store rA f data) = w := by
  obtain ⟨h0, h1, h2, h3⟩ := decodeFields_some h
  rw [encode, encodeFields, h1, h2, h3, flagsBits_flagsOf]
  conv_rhs => rw [← joinFields_splitWord w]
  congr 1
  revert h0
  cases splitWord w
  intro h0
  simp only [encodeFields] at h0
  rw [h0]

end Sys2Proof
end

