-- ==== Sys2Proof/Laws/PerInstr.lean ====
section
/-! SUPPORT. Facts about every instruction as syntax, one lemma per constructor. -/

namespace Sys2Proof.Laws

/-- The word of an instruction is well formed: its opcode is one of the 13 (spec/30_encoding.md R108). -/
def WordForm.Statement (i : Instr) : Prop := wordWellFormed (encode i) = true

/-- The opcode decides. -/
theorem wordWellFormed_encode (i : Instr) (h : legalOpcodes.contains (encodeFields i).op.toNat = true) :
    WordForm.Statement i := by
  rw [WordForm.Statement, wordWellFormed, ← splitWord_op, encode, splitWord_joinFields]
  exact h

theorem WordForm.nop : WordForm.Statement .nop := wordWellFormed_encode _ (by decide)
theorem WordForm.halt : WordForm.Statement .halt := wordWellFormed_encode _ (by decide)
theorem WordForm.add (rd ra rb : RegIdx) : WordForm.Statement (.add rd ra rb) := wordWellFormed_encode _ rfl
theorem WordForm.sub (rd ra rb : RegIdx) : WordForm.Statement (.sub rd ra rb) := wordWellFormed_encode _ rfl
theorem WordForm.lshift (rd ra rb : RegIdx) : WordForm.Statement (.lshift rd ra rb) := wordWellFormed_encode _ rfl
theorem WordForm.rshift (rd ra rb : RegIdx) : WordForm.Statement (.rshift rd ra rb) := wordWellFormed_encode _ rfl
theorem WordForm.comp (sd : StatIdx) (ra rb : RegIdx) : WordForm.Statement (.comp sd ra rb) :=
  wordWellFormed_encode _ rfl
theorem WordForm.compgrt (sd : StatIdx) (ra rb : RegIdx) : WordForm.Statement (.compgrt sd ra rb) :=
  wordWellFormed_encode _ rfl
theorem WordForm.complst (sd : StatIdx) (ra rb : RegIdx) : WordForm.Statement (.complst sd ra rb) :=
  wordWellFormed_encode _ rfl
theorem WordForm.load (rA : RegIdx) (f : Flags) (data : Addr) : WordForm.Statement (.load rA f data) :=
  wordWellFormed_encode _ rfl
theorem WordForm.store (rA : RegIdx) (f : Flags) (data : Addr) : WordForm.Statement (.store rA f data) :=
  wordWellFormed_encode _ rfl
theorem WordForm.jmp (si : StatIdx) (onHigh dec : Bool) (disp : BitVec 16) :
    WordForm.Statement (.jmp si onHigh dec disp) := wordWellFormed_encode _ rfl
theorem WordForm.print (ra rb : RegIdx) (data : Addr) : WordForm.Statement (.print ra rb data) :=
  wordWellFormed_encode _ rfl

end Sys2Proof.Laws
end

