-- ==== Sys2Proof/Laws/Step.lean ====
section
/-! SUPPORT. What a step can do, said once: the inversion of `step`, and of `exec` one equation per shared shape. -/

namespace Sys2Proof.Machine

/-- The inversion of a step: it was enabled, and it executed what its fetch decoded to or took BadInstruction. -/
theorem step_cases {s t : State} (h : step s = .next t) :
    s.running = true ∧
    ((∃ i, decode (fetch s).1 = some i ∧ exec i (fetch s).2 = .next t) ∨
     (decode (fetch s).1 = none ∧ t = raiseBadInstruction (fetch s).2 (fetch s).1)) := by
  unfold step at h
  split at h
  · rename_i hr
    refine ⟨hr, ?_⟩
    split at h
    · rename_i i hd; exact .inl ⟨i, hd, h⟩
    · rename_i hd
      injection h with h
      exact .inr ⟨hd, h.symm⟩
  · exact absurd h (by simp)

theorem step_of_decode {s : State} {i : Instr} (hr : s.running = true) (hd : decode (fetch s).1 = some i) :
    step s = exec i (fetch s).2 := by
  simp [step, hr, hd]

theorem step_of_illegal {s : State} (hr : s.running = true) (hd : decode (fetch s).1 = none) :
    step s = .next (raiseBadInstruction (fetch s).2 (fetch s).1) := by
  simp [step, hr, hd]

/-- The state each instruction leaves. -/
def execState (i : Instr) (s : State) : State :=
  match i with
  | .nop => advance s
  | .halt => advance (stopRunning s)
  | .add rd ra rb => aluInto aluAdd rd ra rb s
  | .sub rd ra rb => aluInto aluSub rd ra rb s
  | .lshift rd ra rb => aluInto aluLshift rd ra rb s
  | .rshift rd ra rb => aluInto aluRshift rd ra rb s
  | .comp sd ra rb => compareInto relEqual sd ra rb s
  | .compgrt sd ra rb => compareInto relGreater sd ra rb s
  | .complst sd ra rb => compareInto relLess sd ra rb s
  | .load rA f data =>
    let r := loadSource (encode (.load rA f data)) f data s
    advance (writeReg r.2 rA (splice r.1 (readReg r.2 rA) f))
  | .store rA f data =>
    let src := storeSource (encode (.store rA f data)) f rA s
    let r := storeOld f data s
    advance (memWrite data (splice src r.1 f) r.2)
  | .jmp si onHigh dec disp => if jmpTaken si onHigh s then setPc s (jmpTarget dec disp s) else advance s
  | .print ra rb data =>
    let r := memRead .data data s
    advance (emit r.2 (.print (readReg r.2 ra) (readReg r.2 rb) r.1))

/-- `exec` always answers a next state. -/
theorem exec_eq (i : Instr) (s : State) : exec i s = .next (execState i s) := by cases i <;> rfl

/-- The inversion of `exec`. -/
theorem exec_next {i : Instr} {s t : State} (h : exec i s = .next t) : t = execState i s := by
  rw [exec_eq] at h
  injection h with h
  exact h.symm

/-! ### The shared shapes -/

@[simp] theorem aluInto_regs (f : Word → Word → Word) (rd ra rb : RegIdx) (s : State) :
    (aluInto f rd ra rb s).regs = writeRegs s.regs rd (f (readReg s ra) (readReg s rb)) := rfl
@[simp] theorem aluInto_pc (f : Word → Word → Word) (rd ra rb : RegIdx) (s : State) :
    (aluInto f rd ra rb s).pc = s.pc + 1 := rfl
@[simp] theorem compareInto_pc (f : Word → Word → Bool) (sd : StatIdx) (ra rb : RegIdx) (s : State) :
    (compareInto f sd ra rb s).pc = s.pc + 1 := rfl

/-- A LOAD's access touches only the cache, the trace and the tracker. -/
theorem loadSource_frame (iw : Word) (f : Flags) (data : Addr) (s : State) :
    (loadSource iw f data s).2.regs = s.regs ∧ (loadSource iw f data s).2.status = s.status ∧
    (loadSource iw f data s).2.pc = s.pc ∧ (loadSource iw f data s).2.running = s.running ∧
    (loadSource iw f data s).2.fault = s.fault ∧ (loadSource iw f data s).2.ram = s.ram := by
  unfold loadSource; split <;> simp

theorem storeOld_frame (f : Flags) (data : Addr) (s : State) :
    (storeOld f data s).2.regs = s.regs ∧ (storeOld f data s).2.status = s.status ∧
    (storeOld f data s).2.pc = s.pc ∧ (storeOld f data s).2.running = s.running ∧
    (storeOld f data s).2.fault = s.fault ∧ (storeOld f data s).2.ram = s.ram := by
  unfold storeOld; split <;> simp

@[simp] theorem loadSource_regs (iw : Word) (f : Flags) (data : Addr) (s : State) :
    (loadSource iw f data s).2.regs = s.regs := (loadSource_frame iw f data s).1
@[simp] theorem loadSource_status (iw : Word) (f : Flags) (data : Addr) (s : State) :
    (loadSource iw f data s).2.status = s.status := (loadSource_frame iw f data s).2.1
@[simp] theorem loadSource_pc (iw : Word) (f : Flags) (data : Addr) (s : State) :
    (loadSource iw f data s).2.pc = s.pc := (loadSource_frame iw f data s).2.2.1
@[simp] theorem loadSource_running (iw : Word) (f : Flags) (data : Addr) (s : State) :
    (loadSource iw f data s).2.running = s.running := (loadSource_frame iw f data s).2.2.2.1
@[simp] theorem loadSource_fault (iw : Word) (f : Flags) (data : Addr) (s : State) :
    (loadSource iw f data s).2.fault = s.fault := (loadSource_frame iw f data s).2.2.2.2.1
@[simp] theorem loadSource_ram (iw : Word) (f : Flags) (data : Addr) (s : State) :
    (loadSource iw f data s).2.ram = s.ram := (loadSource_frame iw f data s).2.2.2.2.2
@[simp] theorem storeOld_regs (f : Flags) (data : Addr) (s : State) :
    (storeOld f data s).2.regs = s.regs := (storeOld_frame f data s).1
@[simp] theorem storeOld_status (f : Flags) (data : Addr) (s : State) :
    (storeOld f data s).2.status = s.status := (storeOld_frame f data s).2.1
@[simp] theorem storeOld_pc (f : Flags) (data : Addr) (s : State) :
    (storeOld f data s).2.pc = s.pc := (storeOld_frame f data s).2.2.1
@[simp] theorem storeOld_running (f : Flags) (data : Addr) (s : State) :
    (storeOld f data s).2.running = s.running := (storeOld_frame f data s).2.2.2.1
@[simp] theorem storeOld_fault (f : Flags) (data : Addr) (s : State) :
    (storeOld f data s).2.fault = s.fault := (storeOld_frame f data s).2.2.2.2.1
@[simp] theorem storeOld_ram (f : Flags) (data : Addr) (s : State) :
    (storeOld f data s).2.ram = s.ram := (storeOld_frame f data s).2.2.2.2.2

theorem inv_loadSource {s : State} (hi : Inv s) (iw : Word) (f : Flags) (data : Addr) :
    Inv (loadSource iw f data s).2 := by
  unfold loadSource; split
  · exact hi
  · exact inv_memRead hi .data data

theorem inv_storeOld {s : State} (hi : Inv s) (f : Flags) (data : Addr) : Inv (storeOld f data s).2 := by
  unfold storeOld; split
  · exact inv_memRead hi .data data
  · exact hi

theorem loadSource_value {s : State} (hc : Coherent s) (iw : Word) (f : Flags) (data : Addr) :
    (loadSource iw f data s).1 = if f.im then iw else s.ram.read data := by
  unfold loadSource; split
  · rfl
  · exact memRead_value hc .data data

/-- What a STORE writes, whatever the old word it did not read was. -/
theorem splice_storeOld {s : State} (hc : Coherent s) (src : Word) (f : Flags) (data : Addr) :
    splice src (storeOld f data s).1 f = splice src (s.ram.read data) f := by
  cases hh : f.hlf
  · simp only [splice, hh, Bool.false_eq_true, if_false]
  · cases ho : f.ow
    · simp only [storeOld, hh, ho, Bool.not_false, Bool.and_self, if_true, memRead_value hc]
    · simp only [splice, hh, ho, if_true]

/-! ### The effect of each shared shape -/

theorem regWritten_of_regs {s t : State} {rd : RegIdx} {v : Word} (h : t.regs = writeRegs s.regs rd v) :
    RegWritten rd v s t := by
  intro r
  rw [readReg_eq, h]
  exact readRegs_writeRegs _ _ _ _

/-- All an ALU instruction does. -/
theorem aluInto_effect (f : Word → Word → Word) (rd ra rb : RegIdx) (s : State) :
    AluEffect rd (f (readReg s ra) (readReg s rb)) s (aluInto f rd ra rb s) :=
  ⟨regWritten_of_regs rfl, fun _ => rfl, fun _ => rfl, ⟨rfl, rfl⟩, ⟨rfl, rfl, rfl⟩, rfl⟩

/-- All a compare does. -/
theorem compareInto_effect (rel : Word → Word → Bool) (sd : StatIdx) (ra rb : RegIdx) (s : State) :
    CompareEffect sd (rel (readReg s ra) (readReg s rb)) s (compareInto rel sd ra rb s) :=
  ⟨fun j => readStatus_writeStatus s sd j _, fun _ => rfl, fun _ => rfl, ⟨rfl, rfl⟩, ⟨rfl, rfl, rfl⟩, rfl⟩

/-- All a STORE does, in a state that meets the invariant. -/
theorem execStore_next {s : State} (hi : Inv s) (rA : RegIdx) (f : Flags) (data : Addr) :
    ∃ t, exec (.store rA f data) s = .next t ∧ Inv t ∧ t.regs = s.regs ∧ t.status = s.status ∧ t.pc = s.pc + 1 ∧
      t.ram = s.ram.write data
        (splice (storeSource (encode (.store rA f data)) f rA s) (s.ram.read data) f) := by
  refine ⟨_, rfl, inv_of_same (inv_memWrite (inv_storeOld hi _ _) _ _) rfl rfl rfl rfl rfl, ?_, ?_, ?_, ?_⟩
  · simp
  · simp
  · simp
  · simp only [advance_ram, memWrite_ram, storeOld_ram, splice_storeOld hi.coherent]

/-- A fetch costs 1 ns, hit or miss. -/
theorem fetch_cycles (s : State) : (fetch s).2.tracker.cycles = addCycles s.tracker.cycles 1 := by
  rw [(observed_fetch s).2]
  unfold fetchEvents
  cases lookup (cacheSet s (setIdxOf s.pc)) (tagOf s.pc) <;> rfl

/-- An instruction whose meaning makes no access makes only its fetch's in a step. -/
theorem fetchOnly_of {i : Instr} (h : ∀ s, ∃ t, exec i s = .next t ∧ NoAccess s t) : FetchOnly i := by
  intro s hr hd
  obtain ⟨t, ht, hc, htr, htk⟩ := h (fetch s).2
  refine ⟨t, by rw [step_of_decode hr hd, ht], ?_, ?_, hc⟩
  · rw [htr, fetch_trace]
  · rw [htk, fetch_cycles]

/-! ### Halves and targets as numbers -/

theorem joinHalves_toNat (hi lo : Half) : (joinHalves hi lo).toNat = hi.toNat * 65536 + lo.toNat := by
  simp only [joinHalves, BitVec.toNat_append]
  rw [← Nat.shiftLeft_add_eq_or_of_lt lo.isLt, Nat.shiftLeft_eq]

theorem highHalf_toNat (v : Word) : (highHalf v).toNat = v.toNat / 65536 := by
  have := v.isLt
  simp only [highHalf, BitVec.extractLsb'_toNat, Nat.shiftRight_eq_div_pow]
  omega

theorem lowHalf_toNat (v : Word) : (lowHalf v).toNat = v.toNat % 65536 := by
  simp only [lowHalf, BitVec.extractLsb'_toNat, Nat.shiftRight_eq_div_pow]
  omega

theorem jmpTarget_toNat (dec : Bool) (d : BitVec 16) (s : State) :
    (jmpTarget dec d s).toNat =
      if dec then (s.pc.toNat + 65536 - d.toNat) % 65536 else (s.pc.toNat + d.toNat) % 65536 := by
  have := d.isLt
  unfold jmpTarget
  cases dec
  · simp
  · simp only [if_true, BitVec.toNat_sub]
    omega

end Sys2Proof.Machine
end

