-- ==== Sys2Proof/Tests/Slice0.lean ====
section
/-! SUPPORT. The model's own tests. Expected values are those of spec/95_test_vectors.md, whose section is named at each
test; witness_<Name> meets the hypotheses of Obligations.<Name>. -/

namespace Sys2Proof.Tests

open Sys2Proof Sys2Proof.Machine

/-! ### Helpers -/

/-- A field of the next state, if there is one. -/
def view {α : Type} (o : Host.Outcome State Fault Refusal) (f : State → α) : Option α :=
  match o with
  | .next t => some (f t)
  | .fault _ => none
  | .refused _ => none

/-- The next state, for a step that has one. -/
def nextOf (o : Host.Outcome State Fault Refusal) : State :=
  match o with
  | .next t => t
  | .fault _ => State.reset
  | .refused _ => State.reset

/-- Reset with `R[2] = a` and `R[3] = b`. -/
def regs23 (a b : Word) : State := writeReg (writeReg State.reset 2 a) 3 b

/-- A state whose next step fetches the word `w`. -/
def ready (w : Nat) (s : State) : State := s.withFetchWord 32 w

/-- Reset with the given words of RAM. -/
def withRam (m : Memory) (s : State) : State := { s with ram := m }

/-! ### Well-formedness -/

theorem test_wf_legal_word : wordWellFormed 0x00041889 = true := by decide
theorem test_wf_illegal_word : wordWellFormed 0xABCD0002 = false := by decide
theorem test_wf_illegal_word_62 : wordWellFormed 0x0000003E = false := by decide
theorem test_wf_image : imageWellFormed [0x00000001] = true := by decide
theorem test_wf_image_full : imageWellFormed (List.replicate 65536 0) = true := by
  simp only [imageWellFormed, List.length_replicate]; decide
theorem test_wf_image_too_long : imageWellFormed (List.replicate 65537 0) = false := by
  simp only [imageWellFormed, List.length_replicate]; decide

/-! ### Decoding: words written out bit by bit, `data ++ arg2 ++ arg1 ++ op` (spec/30_encoding.md R101; values of B1, B2,
B3, B4, B5) -/

theorem test_decode_nop :
    decode (0b1111111111111111#16 ++ 0b11111#5 ++ 0b11111#5 ++ 0b000000#6) = some .nop := by decide
theorem test_decode_halt :
    decode (0b0000000000000000#16 ++ 0b00000#5 ++ 0b00000#5 ++ 0b000001#6) = some .halt := by decide
theorem test_decode_add :
    decode (0b0000000000000100#16 ++ 0b00011#5 ++ 0b00010#5 ++ 0b001001#6) = some (.add 4 2 3) := by decide
theorem test_decode_add_reserved :
    decode (0b1111111111100100#16 ++ 0b00011#5 ++ 0b00010#5 ++ 0b001001#6) = some (.add 4 2 3) := by decide
theorem test_decode_sub :
    decode (0b0000000000000100#16 ++ 0b00011#5 ++ 0b00010#5 ++ 0b001010#6) = some (.sub 4 2 3) := by decide
theorem test_decode_lshift :
    decode (0b0000000000000100#16 ++ 0b00011#5 ++ 0b00010#5 ++ 0b001011#6) = some (.lshift 4 2 3) := by decide
theorem test_decode_rshift :
    decode (0b0000000000000100#16 ++ 0b00011#5 ++ 0b00010#5 ++ 0b001100#6) = some (.rshift 4 2 3) := by decide
theorem test_decode_comp :
    decode (0b0000000000000101#16 ++ 0b00011#5 ++ 0b00010#5 ++ 0b010000#6) = some (.comp 5 2 3) := by decide
theorem test_decode_compgrt :
    decode (0b0000000000011111#16 ++ 0b00000#5 ++ 0b00010#5 ++ 0b010010#6) = some (.compgrt 31 2 0) := by decide
theorem test_decode_complst :
    decode (0b0000000000000001#16 ++ 0b00010#5 ++ 0b00000#5 ++ 0b010011#6) = some (.complst 1 0 2) := by decide
theorem test_decode_load :
    decode (0b1010101111001101#16 ++ 0b11011#5 ++ 0b00010#5 ++ 0b011001#6) =
      some (.load 2 ⟨true, true, false, true, true⟩ 0xABCD) := by decide
theorem test_decode_store :
    decode (0b0000000000000010#16 ++ 0b10001#5 ++ 0b00101#5 ++ 0b011010#6) =
      some (.store 5 ⟨true, false, false, false, true⟩ 0x0002) := by decide
theorem test_decode_jmp :
    decode (0b0000000000000101#16 ++ 0b11111#5 ++ 0b00011#5 ++ 0b100001#6) = some (.jmp 3 true true 5) := by decide
theorem test_decode_print :
    decode (0b0000000000010000#16 ++ 0b00011#5 ++ 0b00010#5 ++ 0b111111#6) = some (.print 2 3 0x0010) := by decide
theorem test_decode_illegal_17 :
    decode (0b0000000000000000#16 ++ 0b00000#5 ++ 0b00000#5 ++ 0b010001#6) = none := by decide
/-- B1, round trip. -/
theorem test_encode_load : encode (.load 2 ⟨true, true, false, true, true⟩ 0xABCD) = 0xABCDD899 := by decide
theorem test_decode_table_word : decodeTableWord 32 0x000518E1 = some (.jmp 3 true true 5) := by decide

/-! ### NOP, HALT, the illegal opcode (B6) -/

theorem test_nop_wraps : view (step (ready 0 (setPc State.reset 0xFFFF))) (·.pc) = some 0 := by decide
theorem test_halt : view (step (ready 0xFFFFFFC1 (setPc State.reset 5)))
    (fun t => (t.pc, t.running, t.fault, t.tracker.cycles)) = some (6, false, none, 1) := by decide
theorem test_bad_instruction : view (step (ready 0xABCD0002 (setPc State.reset 1)))
    (fun t => (t.pc, t.running, t.fault, t.trace)) =
      some (1, false, some ⟨1, 0xABCD0002⟩, [.fetch 1, .writeCache 0 0]) := by decide

/-! ### ALU (B2) -/

theorem test_add_carry_lost : view (step (ready 0x00041889 (regs23 0xFFFFFFFF 1)))
    (fun t => (readReg t 4, t.pc, t.tracker.cycles)) = some (0, 1, 1) := by decide
theorem test_add_to_r1_discarded : view (step (ready 0x00011889 (regs23 5 7)))
    (fun t => (readReg t 1, t.regs)) = some (1, (regs23 5 7).regs) := by decide
theorem test_sub_borrow : view (step (ready 0x0004188A (regs23 3 5))) (readReg · 4) = some 0xFFFFFFFE := by decide
theorem test_sub_hardwired : view (step (ready 0x0004080A State.reset)) (readReg · 4) = some 0xFFFFFFFF := by decide
theorem test_lshift_33 : view (step (ready 0x0004188B (regs23 0x80000001 33))) (readReg · 4) = some 2 := by decide
theorem test_lshift_all_ones : view (step (ready 0x0004188B (regs23 3 0xFFFFFFFF))) (readReg · 4) =
    some 0x80000000 := by decide
theorem test_rshift_35 : view (step (ready 0x0004188C (regs23 0x80000000 35))) (readReg · 4) =
    some 0x10000000 := by decide
theorem test_rshift_64 : view (step (ready 0x0004188C (regs23 0xF0 64))) (readReg · 4) = some 0xF0 := by decide

/-! ### Compares (B3) -/

theorem test_comp_equal : view (step (ready 0xFFE51890 (regs23 7 7))) (readStatus · 5) = some true := by decide
theorem test_comp_differ : view (step (ready 0x00051890 (writeStatus (writeStatus (regs23 7 8) 5 true) 0 true)))
    (fun t => (readStatus t 5, readStatus t 0)) = some (false, true) := by decide
theorem test_compgrt_unsigned : view (step (ready 0x00001892 (regs23 0x80000000 1))) (readStatus · 0) =
    some true := by decide
theorem test_compgrt_equal : view (step (ready 0x00001892 (writeStatus (regs23 4 4) 0 true))) (readStatus · 0) =
    some false := by decide
theorem test_complst_unsigned : view (step (ready 0x00001893 (writeStatus (regs23 0x80000000 1) 0 true)))
    (readStatus · 0) = some false := by decide
theorem test_complst_index_one : view (step (ready 0x00011013 (regs23 0xFFFFFFFF 0))) (readStatus · 1) =
    some true := by decide

/-! ### LOAD and STORE (B4, V-S2, V-S3) -/

/-- F = 3, TO_SIG = 0, OW = 0: the high half of memory into the low half of `R[2]`. -/
theorem test_load_half : view (step (ready 0x09001899 (withRam [(0x0900, 0xAAAABBBB)] (regs23 0xCCCCDDDD 0))))
    (fun t => (readReg t 2, t.tracker.cycles)) = some (0xCCCCAAAA, 81) := by decide
/-- F = 21, IM: the low half of the instruction word into the high half, no data access. -/
theorem test_load_immediate : view (step (ready 0x0900A899 (regs23 0xCCCCDDDD 0)))
    (fun t => (readReg t 2, t.tracker.cycles)) = some (0xA899DDDD, 1) := by decide
/-- V-S2. -/
theorem test_load_into_r0 : view (step (ready 0x12340019 (withRam [(0x1234, 0xDEAD)] State.reset)))
    (fun t => (readReg t 0, t.tracker.uniqueRamLocations, t.tracker.cycles, t.trace)) =
      some (0, [0x1234], 81, [.fetch 0, .writeCache 0 0, .miss 0x1234, .writeCache 2 0]) := by decide
/-- F = 7: a read and then a write, the high half of the word replaced. -/
theorem test_store_half : view (step (ready 0x0900389A (withRam [(0x0900, 0xCCCCDDDD)] (regs23 0xAAAABBBB 0))))
    (fun t => (t.ram.read 0x0900, t.tracker.cycles, t.trace)) =
      some (0xAAAADDDD, 82, [.fetch 0, .writeCache 0 0, .miss 0x0900, .writeCache 1 0, .hit 0x0900,
        .writeCache 1 0]) := by decide
/-- F = 29, IM and OW: one write, of bits of the STORE word itself. -/
theorem test_store_immediate : view (step (ready 0x0900E89A (withRam [(0x0900, 0xCCCCDDDD)] State.reset)))
    (fun t => (t.ram.read 0x0900, t.tracker.cycles)) = some (0xE89A0000, 81) := by decide

/-! ### JMP (B5) -/

theorem test_jmp_taken_back : view (step (ready 0x000518E1 (setPc (writeStatus State.reset 3 true) 0x0014))) (·.pc) =
    some 0x000F := by decide
theorem test_jmp_wraps : view (step (ready 0x00050021 (setPc State.reset 0xFFFE))) (·.pc) = some 3 := by decide

/-! ### PRINT (B6) -/

theorem test_print : view (step (ready 0x001018BF (withRam [(0x0010, 0x2A)] (regs23 5 7))))
    (fun t => (t.trace, t.tracker.cycles, printed t)) =
      some ([.fetch 0, .writeCache 0 0, .miss 0x0010, .writeCache 0 4, .print 5 7 0x2A], 81, [(5, 7, 0x2A)]) := by
  decide
theorem test_print_itself : view (step (ready 0x0000003F State.reset)) (fun t => (t.trace, t.tracker.cycles)) =
    some ([.fetch 0, .writeCache 0 0, .hit 0, .print 0 0 0x3F], 2) := by decide

/-! ### Cache (B7, V-S6) -/

theorem test_address_split : (setIdxOf 0x1234, tagOf 0x1234) = (2, 0x234) ∧ (setIdxOf 0xFFFF, tagOf 0xFFFF) = (31, 0x7FF) := by
  decide
theorem test_touch : touch ⟨false, false, false, false, false, false, false⟩ 2 =
    ⟨true, false, false, false, true, false, false⟩ := by decide
theorem test_victim : victim ⟨false, true, false, false, true, false, false⟩ = 3 ∧
    victim ⟨true, false, false, false, false, true, false⟩ = 5 := by decide
/-- V-S6: nine addresses of one set fill ways 0, 4, 2, 6, 1, 5, 3, 7 and then evict way 0. -/
theorem test_thrash : ((List.range 9).foldl (fun s a => (memRead .data (BitVec.ofNat 16 a) s).2) State.reset).trace.filterMap
    (fun | .writeCache _ w => some w | _ => none) = [0, 4, 2, 6, 1, 5, 3, 7, 0] := by decide
/-- B7: a valid way is evicted while invalid ways remain. -/
theorem test_evicts_valid_way : ([0, 1, 2, 1, 3, 2, 1, 4].foldl (fun s a => (memRead .data a s).2) State.reset).trace.getLast? =
    some (.writeCache 0 0) := by decide

/-! ### Host -/

theorem test_reset_is_power_on : powerOn (regs23 5 7) = State.reset := by decide
theorem test_core_first_step : view (core.step core.reset) (·.pc) = some 1 := by decide

/-! ### Witnesses -/

/-- A cold state meets the invariant. -/
theorem inv_cold {s : State} (hm : s.ram.wf) (hc : s.cache = State.reset.cache) (hf : s.fault = none)
    (ht : s.tracker = Tracker.zero) : Inv s := by
  have hv : ∀ st w, (wayOf (cacheSet s st) w).valid = false := by
    intro st w
    rw [cacheSet_congr (s := State.reset) hc]
    simp [cacheSet, wayOf, State.reset, CacheSet.empty, Way.invalid]
  refine ⟨hm, fun st w h => ?_, fun st w w' h => ?_, fun h => absurd hf h, ?_, fun st w h => ?_⟩
  · rw [hv] at h; cases h
  · rw [hv] at h; cases h
  · rw [ht]; decide
  · rw [hv] at h; cases h

/-- Address 0x0900 in the cache, in way 0 of set 1. -/
def warm : State := (memRead .data 0x0900 (withRam [(0x0900, 0xAAAABBBB)] State.reset)).2

theorem inv_warm : Inv warm :=
  inv_memRead (s := withRam [(0x0900, 0xAAAABBBB)] State.reset) (inv_cold (by decide) rfl rfl rfl) .data 0x0900

/-- Reset with the registers of B4's STORE column and a word at 0 to run, the memory word at 0x0900 present. -/
def atStart (w : Nat) : State := ready w (withRam [(0x0900, 0xCCCCDDDD)] (regs23 0xAAAABBBB 7))

theorem inv_atStart_store : Inv (atStart 0x0900389A) := inv_cold (by decide) rfl rfl rfl
theorem inv_atStart_load : Inv (atStart 0x09001899) := inv_cold (by decide) rfl rfl rfl
theorem inv_atStart_halt : Inv (atStart 1) := inv_cold (by decide) rfl rfl rfl
theorem inv_atStart_illegal : Inv (atStart 0xABCD0002) := inv_cold (by decide) rfl rfl rfl

/-- A step that the fetched word decides. -/
theorem step_atStart_store : step (atStart 0x0900389A) = .next (nextOf (step (atStart 0x0900389A))) := rfl
theorem step_atStart_load : step (atStart 0x09001899) = .next (nextOf (step (atStart 0x09001899))) := rfl
theorem step_atStart_halt : step (atStart 1) = .next (nextOf (step (atStart 1))) := rfl
theorem step_atStart_illegal : step (atStart 0xABCD0002) = .next (nextOf (step (atStart 0xABCD0002))) := rfl

theorem witness_RegisterReads : 2 ≤ (2 : RegIdx).toNat ∧ (2 : RegIdx).toNat - 2 < 30 ∧
    2 ≤ (31 : RegIdx).toNat ∧ (31 : RegIdx).toNat - 2 < 30 := by decide

theorem witness_RegisterWrites : ((0 : RegIdx) = 0 ∨ (0 : RegIdx) = 1) ∧ ((1 : RegIdx) = 0 ∨ (1 : RegIdx) = 1) := by
  decide

/-- ADD r4, r2, r3 changes r4; r31 is not read. -/
theorem witness_DataRegisterUse : (∃ t, exec (.add 4 2 3) (regs23 5 7) = .next t ∧
    readReg t 4 ≠ readReg (regs23 5 7) 4) ∧ (31 : RegIdx) ∉ regReads (.add 4 2 3) ∧
    (2 : RegIdx) ∉ regReads (.load 2 ⟨true, false, false, true, false⟩ 0) :=
  ⟨⟨_, rfl, by decide⟩, by decide, by decide⟩

/-- COMP s5 changes s5; JMP s3 reads s3, which the two states agree on. -/
theorem witness_StatusBitUse : (∃ t, exec (.comp 5 2 3) (regs23 7 7) = .next t ∧
      readStatus t 5 ≠ readStatus (regs23 7 7) 5) ∧
    (writeStatus State.reset 4 true = { State.reset with status := (writeStatus State.reset 4 true).status } ∧
      statusRead (.jmp 3 true false 9) = some 3 ∧
      readStatus (writeStatus State.reset 4 true) 3 = readStatus State.reset 3) :=
  ⟨⟨_, rfl, by decide⟩, rfl, rfl, rfl⟩

theorem witness_StepRunsDecodedInstruction :
    (Inv (atStart 0x0900389A) ∧ (atStart 0x0900389A).running = true ∧
      decode (fetch (atStart 0x0900389A)).1 = some (.store 2 ⟨true, true, true, false, false⟩ 0x0900) ∧
      decode ((atStart 0x0900389A).ram.read (atStart 0x0900389A).pc) =
        some (.store 2 ⟨true, true, true, false, false⟩ 0x0900)) ∧
    ((atStart 0xABCD0002).running = true ∧ decode (fetch (atStart 0xABCD0002)).1 = none) ∧
    (stopRunning State.reset).running = false :=
  ⟨⟨inv_atStart_store, by decide⟩, by decide, by decide⟩

theorem witness_StoppedCoreTakesNoStep :
    ((stopRunning State.reset).running = false ∧ (stopRunning State.reset).fault = none) ∧
    ((raiseBadInstruction State.reset 2).running = false ∧ (raiseBadInstruction State.reset 2).fault = some ⟨0, 2⟩) := by
  decide

/-- A JMP taken, a step that completes on a legal word, and one on an illegal word: also for RunningFlag. -/
theorem witness_PcAfterStep : (∃ t, exec (.jmp 0 false true 5) (setPc State.reset 2) = .next t) ∧
    (∃ t, step (atStart 0xABCD0002) = .next t) ∧ decode (fetch (atStart 0xABCD0002)).1 = none :=
  ⟨⟨_, rfl⟩, ⟨_, step_atStart_illegal⟩, by decide⟩

theorem witness_RunningFlag : (∃ t, exec .halt State.reset = .next t) ∧ (∃ t, exec .nop State.reset = .next t) ∧
    (∃ t, step (atStart 0xABCD0002) = .next t) ∧ decode (fetch (atStart 0xABCD0002)).1 = none :=
  ⟨⟨_, rfl⟩, ⟨_, rfl⟩, ⟨_, step_atStart_illegal⟩, by decide⟩

theorem witness_BadInstructionTaken :
    (atStart 0xABCD0002).running = true ∧ decode (fetch (atStart 0xABCD0002)).1 = none := by decide

theorem witness_OnlyIllegalOpcodesRaise : ∃ t, step (atStart 0xABCD0002) = .next t ∧
    t.fault ≠ (atStart 0xABCD0002).fault := ⟨_, step_atStart_illegal, by decide⟩

/-- The second clause's state runs with an error latched: no run reaches it, the statement covers it. -/
theorem witness_OnlyResetUndoes : (∃ t, step warm = .next t ∧ (wayOf (cacheSet warm 1) 0).valid = true) ∧
    (∃ t, step { warm with fault := some ⟨0, 2⟩ } = .next t ∧ ({ warm with fault := some ⟨0, 2⟩ } : State).fault ≠ none) :=
  ⟨⟨_, rfl, by decide⟩, ⟨_, rfl, by decide⟩⟩

theorem witness_RunLoop : (atStart 1).running = true ∧ (∃ t, step (atStart 1) = .next t) ∧
    (stopRunning State.reset).running = false ∧ (run 0 (atStart 1)).running = true ∧
    (run 1 (atStart 0x09001899)).running = true := ⟨by decide, ⟨_, step_atStart_halt⟩, by decide, by decide, by decide⟩

/-- A step that leaves the core running, one that halts, one that fails. -/
theorem witness_RunEndReading :
    (∃ t, Inv (atStart 0x09001899) ∧ step (atStart 0x09001899) = .next t ∧ runEnd t = .stillRunning) ∧
    (∃ t, Inv (atStart 1) ∧ step (atStart 1) = .next t ∧ runEnd t = .normal) ∧
    (∃ t, Inv (atStart 0xABCD0002) ∧ step (atStart 0xABCD0002) = .next t ∧ runEnd t = .byFault ⟨0, 0xABCD0002⟩) :=
  ⟨⟨_, inv_atStart_load, step_atStart_load, by decide⟩, ⟨_, inv_atStart_halt, step_atStart_halt, by decide⟩,
    ⟨_, inv_atStart_illegal, step_atStart_illegal, by decide⟩⟩

theorem witness_MemoryReadAfterWrite : Memory.wf [(0, 1), (0x0900, 0xCCCCDDDD), (0xFFFF, 2)] := by decide

theorem not_inCache_reset (a : Addr) : ¬ InCache a State.reset := by
  rintro ⟨w, hv, -⟩
  simp [cacheSet, wayOf, State.reset, CacheSet.empty, Way.invalid] at hv

/-- A hit and a miss: also for WriteAccess. -/
theorem witness_ReadAccess : (UniqueTags warm ∧ (wayOf (cacheSet warm (setIdxOf 0x0900)) 0).valid = true ∧
    (wayOf (cacheSet warm (setIdxOf 0x0900)) 0).tag = tagOf 0x0900) ∧ ¬ InCache 0xFFFF State.reset :=
  ⟨⟨inv_warm.unique, by decide, by decide⟩, not_inCache_reset _⟩

theorem witness_WriteAccess : (UniqueTags warm ∧ (wayOf (cacheSet warm (setIdxOf 0x0900)) 0).valid = true ∧
    (wayOf (cacheSet warm (setIdxOf 0x0900)) 0).tag = tagOf 0x0900) ∧ warm.ram.wf ∧ ¬ InCache 0 State.reset :=
  ⟨⟨inv_warm.unique, by decide, by decide⟩, inv_warm.memory, not_inCache_reset _⟩

theorem witness_StepKeepsInvariant : ∃ t, Inv (atStart 0x0900389A) ∧ step (atStart 0x0900389A) = .next t :=
  ⟨_, inv_atStart_store, step_atStart_store⟩

theorem witness_HostEstablishesInvariant : warm.ram.wf ∧ Inv State.reset ∧ ∃ t, load [0x00000001] State.reset = .next t :=
  ⟨inv_warm.memory, inv_cold (by decide) rfl rfl rfl, ⟨_, rfl⟩⟩

theorem witness_ReadReturnsRam : Inv warm := inv_warm

/-- A step that answers a next state and one that does not. -/
theorem witness_CacheIsTransparent : Inv (atStart 0x0900389A) ∧ Inv (stopRunning warm) ∧
    step (stopRunning warm) = .fault .halted :=
  ⟨inv_atStart_store, ⟨inv_warm.memory, inv_warm.coherent, inv_warm.unique, fun _ => rfl, inv_warm.sets, inv_warm.live⟩,
    rfl⟩

/-- A STORE to the very next address, 0x0001. -/
theorem witness_StoreSeenByFetch : ∃ t, Inv (atStart 0x0001009A) ∧ (atStart 0x0001009A).running = true ∧
    decode ((atStart 0x0001009A).ram.read (atStart 0x0001009A).pc) =
      some (.store 2 ⟨false, false, false, false, false⟩ 0x0001) ∧
    step (atStart 0x0001009A) = .next t ∧ (0x0001 : Addr) = (atStart 0x0001009A).pc + 1 ∧
    ∃ u, Inv u ∧ u.pc = 0x0001 ∧ u.ram.read 0x0001 = t.ram.read 0x0001 :=
  ⟨_, inv_cold (by decide) rfl rfl rfl, by decide, by decide, rfl, by decide,
    withRam [(1, 0xAAAABBBB)] (setPc State.reset 1), inv_cold (by decide) rfl rfl rfl, by decide, by decide⟩

theorem witness_IgnoredBitsOnlyAreDropped : decode 0xFFE41889 = some (.add 4 2 3) ∧
    0xFFE41889 &&& usedBits (.add 4 2 3) = 0x00041889 &&& usedBits (.add 4 2 3) ∧
    decode 0x0005F8E1 = some (.jmp 3 true true 5) ∧
    0x0005F8E1 &&& usedBits (.jmp 3 true true 5) = 0x000518E1 &&& usedBits (.jmp 3 true true 5) := by decide

theorem witness_ReservedBitsIgnored : (0xFFE41889 : Word).toNat % 64 ∈ [9, 10, 11, 12, 16, 18, 19] ∧
    (0xFFE51893 : Word).toNat % 64 ∈ [9, 10, 11, 12, 16, 18, 19] := by decide

/-- The opcode premises of the thirteen result statements. -/
theorem witness_opcodes : (0xFFFFFFC0 : Word).toNat % 64 = 0 ∧ (0xFFFFFFC1 : Word).toNat % 64 = 1 ∧
    (0x00041889 : Word).toNat % 64 = 9 ∧ (0x0004188A : Word).toNat % 64 = 10 ∧ (0x0004188B : Word).toNat % 64 = 11 ∧
    (0x0004188C : Word).toNat % 64 = 12 ∧ (0x00051890 : Word).toNat % 64 = 16 ∧ (0x00001892 : Word).toNat % 64 = 18 ∧
    (0x00001893 : Word).toNat % 64 = 19 ∧ (0xABCDD899 : Word).toNat % 64 = 25 ∧ (0x0002895A : Word).toNat % 64 = 26 ∧
    (0x000518E1 : Word).toNat % 64 = 33 ∧ (0x001018BF : Word).toNat % 64 = 63 := by decide

/-- The premises of `FetchOnly` in NopResult, HaltResult, AddResult and JmpResult. -/
theorem witness_FetchOnly : (atStart 0).running = true ∧ decode (fetch (atStart 0)).1 = some .nop ∧
    decode (fetch (atStart 1)).1 = some .halt ∧ decode (fetch (atStart 0x00041889)).1 = some (.add 4 2 3) ∧
    decode (fetch (atStart 0x000518E1)).1 = some (.jmp 3 true true 5) := by decide

/-- The premises of `FetchOnly` in the other ALU and compare results. -/
theorem witness_FetchOnly_more : decode (fetch (atStart 0x0004188A)).1 = some (.sub 4 2 3) ∧
    decode (fetch (atStart 0x0004188B)).1 = some (.lshift 4 2 3) ∧
    decode (fetch (atStart 0x0004188C)).1 = some (.rshift 4 2 3) ∧
    decode (fetch (atStart 0x00051890)).1 = some (.comp 5 2 3) ∧
    decode (fetch (atStart 0x00001892)).1 = some (.compgrt 0 2 3) ∧
    decode (fetch (atStart 0x00001893)).1 = some (.complst 0 2 3) := by decide

theorem witness_LoadResult : decode 0xABCDD899 = some (.load 2 ⟨true, true, false, true, true⟩ 0xABCD) ∧
    (⟨true, true, false, true, true⟩ : Flags).im = true ∧ (⟨true, true, false, true, false⟩ : Flags).im = false := by
  decide

theorem witness_LoadStep : Inv (atStart 0x09001899) ∧ (atStart 0x09001899).running = true ∧
    decode ((atStart 0x09001899).ram.read (atStart 0x09001899).pc) =
      some (.load 2 ⟨true, true, false, false, false⟩ 0x0900) := ⟨inv_atStart_load, by decide, by decide⟩

theorem witness_StoreResult : decode 0x0002895A = some (.store 5 ⟨true, false, false, false, true⟩ 0x0002) ∧
    warm.ram.wf := ⟨by decide, inv_warm.memory⟩

theorem witness_StoreStep : Inv (atStart 0x0900389A) ∧ (atStart 0x0900389A).running = true ∧
    decode ((atStart 0x0900389A).ram.read (atStart 0x0900389A).pc) =
      some (.store 2 ⟨true, true, true, false, false⟩ 0x0900) := ⟨inv_atStart_store, by decide, by decide⟩

theorem witness_StoreLoadLaws : Inv warm ∧ (⟨false, false, false, false, false⟩ : Flags).hlf = false ∧
    (⟨false, false, false, false, false⟩ : Flags).im = false := ⟨inv_warm, rfl, rfl⟩

theorem witness_PrintResult : Inv warm := inv_warm

theorem witness_StepEvents : ∃ t, step (atStart 0x0900389A) = .next t := ⟨_, step_atStart_store⟩

theorem witness_TrackerUpdate : Tracker.zero.wf ∧ Tracker.zero.cycles.toNat + eventCost (.miss 0x1234) < 2 ^ 64 := by
  decide

theorem witness_TrackerFollowsTraceKept : TrackerFollowsTrace State.reset ∧ ∃ t, step State.reset = .next t :=
  ⟨rfl, ⟨_, rfl⟩⟩

theorem witness_CoreUnawareOfTracker : ∃ t, step (atStart 0x09001899) = .next t := ⟨_, step_atStart_load⟩

/-- At the start, and at the last count the premise admits. -/
theorem witness_InstructionCost : (∃ t, step (atStart 0x0900389A) = .next t ∧
      (atStart 0x0900389A).tracker.cycles.toNat + 82 < 2 ^ 64) ∧
    ∃ t, step { State.reset with tracker := ⟨0xFFFFFFFFFFFFFFAD, [], []⟩ } = .next t ∧
      (0xFFFFFFFFFFFFFFAD : BitVec 64).toNat + 82 < 2 ^ 64 :=
  ⟨⟨_, step_atStart_store, by decide⟩, ⟨_, rfl, by decide⟩⟩

theorem witness_CostReportFields : Tracker.wf ⟨83, [(0, 0), (0, 4), (1, 0)], [0x0900]⟩ := by decide

/-- A warm cache, a step that completed, an image one word too long, and the longest image. -/
theorem witness_HostLoad : (∃ st w, (wayOf (cacheSet warm st) w).valid = true) ∧ (∃ t, step State.reset = .next t) ∧
    (∀ st w, (wayOf (cacheSet State.reset st) w).valid = false) ∧ 65536 < (List.replicate 65537 (0 : Word)).length ∧
    (List.replicate 65536 (0 : Word)).length ≤ 65536 ∧ State.reset.ram.wf := by
  refine ⟨⟨1, 0, by decide⟩, ⟨_, rfl⟩, ?_, ?_, ?_, by decide⟩
  · intro st w
    simp [cacheSet, wayOf, State.reset, CacheSet.empty, Way.invalid]
  · rw [List.length_replicate]; decide
  · rw [List.length_replicate]

theorem witness_BootSequence : ([] : List Word).length ≤ 65536 ∧ (List.replicate 65536 (0 : Word)).length ≤ 65536 := by
  rw [List.length_replicate]; decide

end Sys2Proof.Tests
end

section
/-! SUPPORT. What an instruction reads and writes of the registers, the status bits and `running`: one lemma,
`execState_withFiles`, says what `exec` does when all three are replaced, and the statements about R24, R26 and R29 are
read off it. -/

namespace Sys2Proof.Machine

/-! ### Replacing the register file, the status bits and `running` -/

/-- `s` with its data registers, status bits and running flag replaced: a part of the state that no memory access looks
at. -/
def State.withFiles (s : State) (rs : Vector Word 30) (bs : Vector Bool 32) (run : Bool) : State :=
  { s with regs := rs, status := bs, running := run }

@[simp] theorem withFiles_regs (s : State) (rs : Vector Word 30) (bs : Vector Bool 32) (run : Bool) :
    (s.withFiles rs bs run).regs = rs := rfl
@[simp] theorem withFiles_status (s : State) (rs : Vector Word 30) (bs : Vector Bool 32) (run : Bool) :
    (s.withFiles rs bs run).status = bs := rfl
@[simp] theorem readReg_withFiles (s : State) (rs : Vector Word 30) (bs : Vector Bool 32) (run : Bool) (q : RegIdx) :
    readReg (s.withFiles rs bs run) q = readRegs rs q := rfl

theorem memRead_withFiles (k : AccessKind) (a : Addr) (s : State) (rs : Vector Word 30) (bs : Vector Bool 32)
    (run : Bool) :
    memRead k a (s.withFiles rs bs run) = ((memRead k a s).1, (memRead k a s).2.withFiles rs bs run) := by
  cases h : lookup (cacheSet s (setIdxOf a)) (tagOf a) with
  | some w => rw [memRead_hit h, memRead_hit (s := s.withFiles rs bs run) h]; cases k <;> rfl
  | none => rw [memRead_miss h, memRead_miss (s := s.withFiles rs bs run) h]; cases k <;> rfl

theorem memWrite_withFiles (a : Addr) (v : Word) (s : State) (rs : Vector Word 30) (bs : Vector Bool 32) (run : Bool) :
    memWrite a v (s.withFiles rs bs run) = (memWrite a v s).withFiles rs bs run := by
  rw [memWrite_eq, memWrite_eq]; rfl

theorem loadSource_withFiles (iw : Word) (f : Flags) (data : Addr) (s : State) (rs : Vector Word 30)
    (bs : Vector Bool 32) (run : Bool) :
    loadSource iw f data (s.withFiles rs bs run) =
      ((loadSource iw f data s).1, (loadSource iw f data s).2.withFiles rs bs run) := by
  unfold loadSource
  split
  · rfl
  · exact memRead_withFiles ..

theorem storeOld_withFiles (f : Flags) (data : Addr) (s : State) (rs : Vector Word 30) (bs : Vector Bool 32)
    (run : Bool) :
    storeOld f data (s.withFiles rs bs run) = ((storeOld f data s).1, (storeOld f data s).2.withFiles rs bs run) := by
  unfold storeOld
  split
  · exact memRead_withFiles ..
  · rfl

/-! ### The old word of a splice -/

/-- A LOAD or STORE that does not keep the other half ignores the old word. -/
theorem splice_old_ignored {f : Flags} (h : ¬ (f.hlf && !f.ow) = true) (src old old' : Word) :
    splice src old f = splice src old' f := by
  cases hh : f.hlf
  · simp [splice, hh]
  · have ho : f.ow = true := by simpa [hh] using h
    simp [splice, hh, ho]

/-- A LOAD's result depends on the old word of its register only where R24 says that the register is read. -/
theorem load_splice_congr {rA : RegIdx} {f : Flags} {data : Addr} {old old' : Word}
    (h : rA ∈ regReads (.load rA f data) → old' = old) (src : Word) : splice src old' f = splice src old f := by
  by_cases hk : (f.hlf && !f.ow) = true
  · rw [h (by simp only [regReads, hk, if_true, List.mem_singleton])]
  · exact splice_old_ignored hk src old' old

/-! ### The three files after an instruction -/

/-- The word an instruction gives its destination register; 0 where it has none. -/
def regResult (i : Instr) (s : State) : Word :=
  match i with
  | .add _ ra rb => aluAdd (readReg s ra) (readReg s rb)
  | .sub _ ra rb => aluSub (readReg s ra) (readReg s rb)
  | .lshift _ ra rb => aluLshift (readReg s ra) (readReg s rb)
  | .rshift _ ra rb => aluRshift (readReg s ra) (readReg s rb)
  | .load rA f data => splice (loadSource (encode (.load rA f data)) f data s).1 (readReg s rA) f
  | _ => 0

/-- The bit an instruction gives its destination status bit; false where it has none. -/
def statusResult (i : Instr) (s : State) : Bool :=
  match i with
  | .comp _ ra rb => relEqual (readReg s ra) (readReg s rb)
  | .compgrt _ ra rb => relGreater (readReg s ra) (readReg s rb)
  | .complst _ ra rb => relLess (readReg s ra) (readReg s rb)
  | _ => false

/-- The register file `rs` after `i`, whose operands come from `s`. -/
def regsAfter (i : Instr) (s : State) (rs : Vector Word 30) : Vector Word 30 :=
  match regDest i with
  | some rd => writeRegs rs rd (regResult i s)
  | none => rs

/-- The status bits `bs` after `i`, whose operands come from `s`. -/
def statusAfter (i : Instr) (s : State) (bs : Vector Bool 32) : Vector Bool 32 :=
  match statusDest i with
  | some sd => bs.set sd.toNat (statusResult i s) sd.isLt
  | none => bs

/-- `running` after `i`. -/
def runningAfter (i : Instr) (run : Bool) : Bool := if i = .halt then false else run

/-- What `exec` does when the three files are replaced by others that agree on what the instruction reads: the same to
everything else, and the same results written to the other files. -/
theorem execState_withFiles {i : Instr} {s : State} {rs : Vector Word 30} {bs : Vector Bool 32} {run : Bool}
    (hr : ∀ q ∈ regReads i, readRegs rs q = readReg s q)
    (hb : ∀ b, statusRead i = some b → readStatus (s.withFiles rs bs run) b = readStatus s b) :
    execState i (s.withFiles rs bs run) =
      (execState i s).withFiles (regsAfter i s rs) (statusAfter i s bs) (runningAfter i run) := by
  cases i with
  | nop | halt => rfl
  | add rd ra rb | sub rd ra rb | lshift rd ra rb | rshift rd ra rb =>
    simp only [execState, aluInto, readReg_withFiles, hr ra (by simp [regReads]), hr rb (by simp [regReads])]
    rfl
  | comp sd ra rb | compgrt sd ra rb | complst sd ra rb =>
    simp only [execState, compareInto, readReg_withFiles, hr ra (by simp [regReads]), hr rb (by simp [regReads])]
    rfl
  | load rA f data =>
    have hold : ∀ src, splice src (readRegs rs rA) f = splice src (readReg s rA) f := load_splice_congr (hr rA)
    simp only [execState, loadSource_withFiles, readReg_withFiles, hold]
    rfl
  | store rA f data =>
    have hsrc : storeSource (encode (.store rA f data)) f rA (s.withFiles rs bs run) =
        storeSource (encode (.store rA f data)) f rA s := by
      unfold storeSource
      split
      · rfl
      · rename_i him
        exact hr rA (by simp [regReads, him])
    simp only [execState, hsrc, storeOld_withFiles, memWrite_withFiles]
    rfl
  | jmp si onHigh dec disp =>
    have htaken : jmpTaken si onHigh (s.withFiles rs bs run) = jmpTaken si onHigh s := by
      simp only [jmpTaken, hb si rfl]
    simp only [execState, htaken]
    split <;> rfl
  | print ra rb data =>
    have hread : ∀ q ∈ [ra, rb], readRegs rs q = readReg (memRead .data data s).2 q :=
      fun q hq => (hr q hq).trans (readReg_congr (memRead_regs ..) q).symm
    simp only [execState, memRead_withFiles, readReg_withFiles, hread ra (by simp), hread rb (by simp)]
    rfl

/-- The three files after an instruction are its results written to the three files before it. -/
theorem execState_eq_withFiles (i : Instr) (s : State) :
    execState i s =
      (execState i s).withFiles (regsAfter i s s.regs) (statusAfter i s s.status) (runningAfter i s.running) :=
  execState_withFiles (s := s) (rs := s.regs) (bs := s.status) (run := s.running) (fun _ _ => rfl) (fun _ _ => rfl)

theorem execState_regs (i : Instr) (s : State) : (execState i s).regs = regsAfter i s s.regs :=
  congrArg State.regs (execState_eq_withFiles i s)

theorem execState_status (i : Instr) (s : State) : (execState i s).status = statusAfter i s s.status :=
  congrArg State.status (execState_eq_withFiles i s)

theorem execState_running (i : Instr) (s : State) : (execState i s).running = runningAfter i s.running :=
  congrArg State.running (execState_eq_withFiles i s)

/-! ### Reads of the files after an instruction -/

theorem readRegs_writeRegs_ne {i j : RegIdx} (h : j ≠ i) (rs : Vector Word 30) (v : Word) :
    readRegs (writeRegs rs i v) j = readRegs rs j := by
  rw [readRegs_writeRegs, if_neg h]
  split
  · next h0 => rw [h0, readRegs_zero]
  · split
    · next h1 => rw [h1, readRegs_one]
    · rfl

/-- A register that is not the destination keeps its value. -/
theorem readRegs_regsAfter_ne {i : Instr} {r : RegIdx} (h : regDest i ≠ some r) (s : State) (rs : Vector Word 30) :
    readRegs (regsAfter i s rs) r = readRegs rs r := by
  unfold regsAfter
  split
  · next rd hd => exact readRegs_writeRegs_ne (by rintro rfl; exact h hd) rs _
  · rfl

/-- The destination register's new value does not depend on the file it is written to. -/
theorem readRegs_regsAfter_dest {i : Instr} {r : RegIdx} (h : regDest i = some r) (s : State)
    (rs rs' : Vector Word 30) : readRegs (regsAfter i s rs) r = readRegs (regsAfter i s rs') r := by
  simp only [regsAfter, h, readRegs_writeRegs, if_true]

/-- A status bit that is not the destination keeps its value. -/
theorem statusAfter_ne {i : Instr} {b : StatIdx} (h : statusDest i ≠ some b) (s : State) (bs : Vector Bool 32) :
    (statusAfter i s bs)[b.toNat]'b.isLt = bs[b.toNat]'b.isLt := by
  unfold statusAfter
  split
  · next sd hd => exact Vector.getElem_set_ne _ _ (fun e => h (BitVec.eq_of_toNat_eq e ▸ hd))
  · rfl

/-- The destination status bit's new value does not depend on the bits it is written to. -/
theorem statusAfter_dest {i : Instr} {b : StatIdx} (h : statusDest i = some b) (s : State) (bs : Vector Bool 32) :
    (statusAfter i s bs)[b.toNat]'b.isLt = statusResult i s := by
  simp only [statusAfter, h, Vector.getElem_set_self]

/-- No instruction's registers or RAM depend on the status bits: a JMP, the one that reads a bit, changes neither. -/
theorem execState_regs_ram_withStatus (i : Instr) (s : State) (bs : Vector Bool 32) :
    (execState i (s.withFiles s.regs bs s.running)).regs = (execState i s).regs ∧
    (execState i (s.withFiles s.regs bs s.running)).ram = (execState i s).ram := by
  by_cases hj : statusRead i = none
  · rw [execState_withFiles (fun _ _ => rfl) (by simp [hj])]
    exact ⟨(execState_regs i s).symm, rfl⟩
  · cases i with
    | jmp si onHigh dec disp =>
      have hjmp : ∀ u, (execState (.jmp si onHigh dec disp) u).regs = u.regs ∧
          (execState (.jmp si onHigh dec disp) u).ram = u.ram := by
        intro u; simp only [execState]; split <;> exact ⟨rfl, rfl⟩
      obtain ⟨hregs, hram⟩ := hjmp s
      obtain ⟨hregs', hram'⟩ := hjmp (s.withFiles s.regs bs s.running)
      exact ⟨hregs'.trans hregs.symm, hram'.trans hram.symm⟩
    | _ => exact absurd rfl hj

end Sys2Proof.Machine
end

section
/-! The statements on the architectural state (spec/10_state.md). -/

namespace Sys2Proof.Machine

/-- Settles O4, by `execState_withFiles`: the written register is one that the instruction does not read. -/
theorem dataRegisterUse : Obligations.DataRegisterUse := by
  refine ⟨fun i s t r ht hne => ?_, fun i s q v hq => ?_⟩
  · by_contra hd
    rw [exec_next ht] at hne
    exact hne (by rw [readReg_eq, execState_regs, readRegs_regsAfter_ne hd, readReg_eq])
  · have hu : execState i (writeReg s q v) = (execState i s).withFiles (regsAfter i s (writeRegs s.regs q v))
        (statusAfter i s s.status) (runningAfter i s.running) :=
      execState_withFiles (s := s) (fun r hr => readRegs_writeRegs_ne (ne_of_mem_of_not_mem hr hq) s.regs v)
        (fun _ _ => rfl)
    refine ⟨_, _, exec_eq i s, exec_eq i _, ?_, fun r hr => ?_⟩
    · rw [hu, ← execState_status, ← execState_running]; rfl
    · rw [hu, readReg_eq, readReg_eq, withFiles_regs, execState_regs]
      by_cases hd : regDest i = some r
      · exact readRegs_regsAfter_dest hd s _ _
      · have hrq : r ≠ q := hr.resolve_right hd
        rw [readRegs_regsAfter_ne hd, readRegs_regsAfter_ne hd, readRegs_writeRegs_ne hrq]

/-- Settles O6, by `execState_withFiles` with the status bits replaced. -/
theorem statusBitUse : Obligations.StatusBitUse := by
  refine ⟨fun i s t b ht hne => ?_, fun i s s' hs hread => ?_, fun i s s' hs => ?_⟩
  · by_contra hd
    rw [exec_next ht] at hne
    exact hne (by simp only [readStatus, execState_status, statusAfter_ne hd])
  · have hs' : s' = s.withFiles s.regs s'.status s.running := hs
    have hu : execState i s' = (execState i s).withFiles (regsAfter i s s.regs) (statusAfter i s s'.status)
        (runningAfter i s.running) := by
      rw [hs'] at hread ⊢
      exact execState_withFiles (fun _ _ => rfl) hread
    refine ⟨_, _, exec_eq i s, exec_eq i s', ?_, fun b hd => ?_⟩
    · rw [hu, ← execState_regs, ← execState_running]; rfl
    · simp only [readStatus, hu, withFiles_status, execState_status, statusAfter_dest hd]
  · have hs' : s' = s.withFiles s.regs s'.status s.running := hs
    refine ⟨_, _, exec_eq i s, exec_eq i s', ?_⟩
    rw [hs']
    exact execState_regs_ram_withStatus i s s'.status

/-- Settles O10, by `execState_withFiles` with `running` replaced, and by the inversion of a step. -/
theorem runningFlag : Obligations.RunningFlag := by
  refine ⟨applyReset_running, fun i s t ht => ?_, fun s t ht hd => ?_, fun i s b => ⟨_, exec_eq i s, ?_⟩,
    fun s t ht => (step_cases ht).1⟩
  · rw [exec_next ht]; exact execState_running i s
  · have hr := (step_cases ht).1
    rw [step_of_illegal hr hd] at ht
    injection ht with ht
    rw [← ht, raiseBadInstruction_running]
  · have hu : execState i { s with running := b } = (execState i s).withFiles (regsAfter i s s.regs)
        (statusAfter i s s.status) (runningAfter i b) :=
      execState_withFiles (s := s) (fun _ _ => rfl) (fun _ _ => rfl)
    rw [exec_eq, hu, ← execState_regs, ← execState_status]
    rfl

/-- Settles O2, by the rules of a register read. -/
theorem registerReads : Obligations.RegisterReads :=
  fun s => ⟨readRegs_zero s.regs, readRegs_one s.regs, fun i hi _ => readRegs_stored s.regs i hi⟩

/-- Settles O3: a discarded write leaves the state it would have written to, so only the update of `pc` remains. -/
theorem registerWrites : Obligations.RegisterWrites := by
  have discarded : ∀ {i : RegIdx} (u : State) (v : Word), i = 0 ∨ i = 1 → advance (writeReg u i v) = advance u :=
    fun u v hi => congrArg advance (writeReg_hardwired u _ v hi)
  have alu : ∀ (f : Word → Word → Word) (rd ra rb : RegIdx) (s : State), rd = 0 ∨ rd = 1 →
      Host.Outcome.next (φ := Fault) (ρ := Refusal) (aluInto f rd ra rb s) = .next (advance s) :=
    fun _ _ _ _ s hd => congrArg Host.Outcome.next (discarded s _ hd)
  exact ⟨fun s i v r => readReg_writeReg s i r v, fun s i v => writeReg_hardwired s i v,
    fun rd ra rb s hd => ⟨alu aluAdd rd ra rb s hd, alu aluSub rd ra rb s hd, alu aluLshift rd ra rb s hd,
      alu aluRshift rd ra rb s hd⟩,
    fun _ _ _ _ hA => congrArg Host.Outcome.next (discarded _ _ hA)⟩

/-- Settles O5, by the rule of a status read after a status write. -/
theorem statusBitsOrdinary : Obligations.StatusBitsOrdinary :=
  fun s i b => ⟨fun j => readStatus_writeStatus s i j b, rfl, rfl, rfl⟩

end Sys2Proof.Machine
end

section
/-! The statements on the memory and the cache (spec/20_memory.md). -/

namespace Sys2Proof.Machine

/-- A step that fetches a STORE, in a state that meets the invariant: the source with `IM = 1` is RAM's word at the old
`pc`, since that is the word the fetch returned and STORE ignores none of its bits. -/
theorem step_store {s : State} {rA : RegIdx} {f : Flags} {data : Addr} (hi : Inv s) (hr : s.running = true)
    (hd : decode (s.ram.read s.pc) = some (.store rA f data)) :
    ∃ t, step s = .next t ∧ Inv t ∧ t.regs = s.regs ∧ t.status = s.status ∧ t.pc = s.pc + 1 ∧
      t.ram = s.ram.write data
        (splice (if f.im then s.ram.read s.pc else readReg s rA) (s.ram.read data) f) := by
  have hstep : step s = exec (.store rA f data) (fetch s).2 :=
    step_of_decode hr (by rw [fetch_value hi.coherent, hd])
  have hsrc : storeSource (encode (.store rA f data)) f rA (fetch s).2 =
      if f.im then s.ram.read s.pc else readReg s rA := by
    rw [encode_of_decode_store hd, storeSource, readReg_eq, fetch_regs, ← readReg_eq]
  obtain ⟨t, ht, hit, hregs, hstatus, hpc, hram⟩ := execStore_next (inv_fetch hi) rA f data
  rw [hsrc, fetch_ram] at hram
  exact ⟨t, hstep.trans ht, hit, hregs.trans (fetch_regs s), hstatus.trans (fetch_status s),
    by rw [hpc, fetch_pc], hram⟩

/-- Settles O27: `step_store` says what RAM holds after the step and that the invariant holds there, and under the
invariant a fetch returns RAM's word, whatever its cache held before. -/
theorem storeSeenByFetch : Obligations.StoreSeenByFetch := by
  intro s t rA f data hi hr hd ht
  obtain ⟨t', ht', hit, -, -, hpc, hram⟩ := step_store hi hr hd
  obtain rfl : t' = t := by simpa [ht'] using ht
  refine ⟨fetch_value hi.coherent, ?_, fun hdata => ?_, fun u hiu hpcu hread => ?_⟩
  · rw [hram, read_write hi.memory, if_pos rfl]
  · rw [fetch_value hit.coherent, hpc, hdata]
  · rw [fetch_value hiu.coherent, hpcu, hread]

/-- Settles O17: the masks are remainders by powers of two, and the recombination is `addrOf_split` as a number. -/
theorem addressSplit : Obligations.AddressSplit := by
  intro a
  refine ⟨?_, ?_, ?_⟩
  · rw [setIdxOf, BitVec.extractLsb'_toNat, ← Nat.and_two_pow_sub_one_eq_mod]
  · rw [tagOf, BitVec.extractLsb'_toNat, Nat.shiftRight_zero, ← Nat.and_two_pow_sub_one_eq_mod]
  · rw [← addrOf_toNat, addrOf_split]

end Sys2Proof.Machine
end

section
/-! SUPPORT. Fields of a word as shifts and masks, fields of a masked word, and which fields the decoder looks at. -/

namespace Sys2Proof

/-- Extracting a field is a shift and a mask, as R101 writes it. -/
theorem toNat_extractLsb'_eq_and {n : Nat} (x : BitVec n) (start len : Nat) :
    (x.extractLsb' start len).toNat = (x.toNat >>> start) &&& (2 ^ len - 1) := by
  rw [BitVec.extractLsb'_toNat, Nat.and_two_pow_sub_one_eq_mod]

/-- A mask whose bits over a field are all 1 leaves the field. -/
theorem extractLsb'_and_of_allOnes {n start len : Nat} {m : BitVec n}
    (hm : m.extractLsb' start len = BitVec.allOnes len) (x : BitVec n) :
    (x &&& m).extractLsb' start len = x.extractLsb' start len := by
  rw [BitVec.extractLsb'_and, hm, BitVec.and_allOnes]

/-- Joining the fields is shifting each to its place and taking the bitwise or, as R101 writes it. -/
theorem joinFields_toNat_eq_or (f : Fields) : (joinFields f).toNat =
    f.op.toNat ||| (f.arg1.toNat <<< 6) ||| (f.arg2.toNat <<< 11) ||| (f.data.toNat <<< 16) := by
  simp only [joinFields, BitVec.toNat_append, Nat.shiftLeft_or_distrib, ← Nat.shiftLeft_add]
  ac_rfl

/-- The opcodes of formats R and C look at the low 5 bits of `data` only (R104). -/
theorem decodeFields_congr_data5 {f g : Fields} (hf : f.op.toNat ∈ [9, 10, 11, 12, 16, 18, 19]) (hop : g.op = f.op)
    (harg1 : g.arg1 = f.arg1) (harg2 : g.arg2 = f.arg2) (hdata : data5 g.data = data5 f.data) :
    decodeFields g = decodeFields f := by
  simp only [List.mem_cons, List.not_mem_nil, or_false] at hf
  obtain h | h | h | h | h | h | h := hf <;> simp only [decodeFields, hop, h, harg1, harg2, hdata]

/-- The decoder accepts exactly the 13 defined opcodes (R108, R109). -/
theorem decodeFields_isSome (f : Fields) : (decodeFields f).isSome = legalOpcodes.contains f.op.toNat := by
  unfold decodeFields
  split
  case h_14 => simp_all [legalOpcodes]
  all_goals
    rename_i hop
    rw [hop]
    rfl

theorem decode_isSome (w : Word) : (decode w).isSome = wordWellFormed w := by
  rw [decode, decodeFields_isSome, splitWord_op, wordWellFormed]

theorem decode_eq_none_iff (w : Word) : decode w = none ↔ wordWellFormed w = false := by
  rw [← decode_isSome, Option.isSome_eq_false_iff, Option.isNone_iff_eq_none]

/-- The undefined opcodes, as R110 lists them, are the values of a 6-bit field outside R108's map. -/
theorem legalOpcodes_contains_eq_false_iff : ∀ op < 64, legalOpcodes.contains op = false ↔
    op ∈ [2, 3, 4, 5, 6, 7, 8, 13, 14, 15, 17, 20, 21, 22, 23, 24, 27, 28, 29, 30, 31, 32] ∨ 34 ≤ op ∧ op ≤ 62 := by
  decide

end Sys2Proof
end

section
/-! The statements on the encoding (spec/30_encoding.md). -/

namespace Sys2Proof

/-- Settles O28: the extractions are shifts and masks, and splitting and joining are inverse. -/
theorem fieldLayout : Obligations.FieldLayout :=
  ⟨fun w => ⟨toNat_extractLsb'_eq_and w 0 6, toNat_extractLsb'_eq_and w 6 5, toNat_extractLsb'_eq_and w 11 5,
      toNat_extractLsb'_eq_and w 16 16, toNat_extractLsb'_eq_and (splitWord w).data 0 5, joinFields_splitWord w⟩,
    fun f => ⟨splitWord_joinFields f, joinFields_toNat_eq_or f⟩⟩

/-- Settles O31: the mask leaves every field that the opcodes of formats R and C look at. -/
theorem reservedBitsIgnored : Obligations.ReservedBitsIgnored := by
  intro w hop
  constructor
  · have hlegal : ∀ op ∈ [9, 10, 11, 12, 16, 18, 19], legalOpcodes.contains op = true := by decide
    rw [ne_eq, decode_eq_none_iff, wordWellFormed, hlegal _ hop]
    decide
  · have hdata : data5 (splitWord (w &&& 0x001FFFFF)).data = data5 (splitWord w).data := by
      rw [data5_splitWord, data5_splitWord, extractLsb'_and_of_allOnes (by decide)]
    rw [← splitWord_op] at hop
    exact (decodeFields_congr_data5 hop (extractLsb'_and_of_allOnes (by decide) w)
      (extractLsb'_and_of_allOnes (by decide) w) (extractLsb'_and_of_allOnes (by decide) w) hdata).symm

/-- Settles O32: a word decodes iff its opcode is defined, and R110's list is what a 6-bit field holds besides. -/
theorem illegalOpcodes : Obligations.IllegalOpcodes :=
  ⟨fun w => (decode_eq_none_iff w).trans
      (legalOpcodes_contains_eq_false_iff (w.toNat % 64) (Nat.mod_lt _ (by decide))),
    decode_isSome⟩

end Sys2Proof
end

section
/-! SUPPORT. When a step completes, and the run loop as an iteration of `step` (spec/40_step_nop_halt.md R130, R131). -/

namespace Sys2Proof.Machine

/-- The fetch changes nothing but the cache, the trace and the tracker. -/
theorem fetch_frame (s : State) : (fetch s).2 =
    { s with cache := (fetch s).2.cache, trace := (fetch s).2.trace, tracker := (fetch s).2.tracker } := by
  rw [← fetch_regs s, ← fetch_status s, ← fetch_pc s, ← fetch_running s, ← fetch_fault s, ← fetch_ram s]

theorem step_of_stopped {s : State} (hr : s.running = false) : step s = .fault (stopReason s) := by
  simp [step, hr]

theorem exists_step_of_running {s : State} (hr : s.running = true) : ∃ t, step s = .next t := by
  cases hd : decode (fetch s).1 with
  | some i => exact ⟨_, (step_of_decode hr hd).trans (exec_eq i _)⟩
  | none => exact ⟨_, step_of_illegal hr hd⟩

@[simp] theorem run_zero (s : State) : run 0 s = s := rfl

theorem run_succ_of_step {s t : State} (h : step s = .next t) (n : Nat) : run (n + 1) s = run n t := by
  rw [run, h]

theorem run_of_stopped {s : State} (hr : s.running = false) (n : Nat) : run n s = s := by
  cases n with
  | zero => rfl
  | succ n => rw [run, step_of_stopped hr]

/-- A run may be interrupted after any number of steps and taken up again. -/
theorem run_add (m n : Nat) (s : State) : run (m + n) s = run n (run m s) := by
  induction m generalizing s with
  | zero => rw [Nat.zero_add, run_zero]
  | succ m ih =>
    rw [Nat.add_right_comm]
    cases hr : s.running with
    | false => simp only [run_of_stopped hr]
    | true =>
      obtain ⟨t, ht⟩ := exists_step_of_running hr
      rw [run_succ_of_step ht, run_succ_of_step ht, ih]

/-- A run that is still running has been running all along: from the step at which it ended its state stays the same. -/
theorem running_of_running_run {n : Nat} {s : State} (hr : (run n s).running = true) {m : Nat} (hm : m ≤ n) :
    (run m s).running = true := by
  obtain ⟨k, rfl⟩ := Nat.exists_eq_add_of_le hm
  by_contra hstop
  have hend : run (m + k) s = run m s := by rw [run_add, run_of_stopped (Bool.eq_false_iff.mpr hstop)]
  exact hstop (hend ▸ hr)

/-- The state after one more step of a run is the step of the state it stands at. -/
theorem step_run {n : Nat} {s : State} (hr : (run n s).running = true) : step (run n s) = .next (run (n + 1) s) := by
  obtain ⟨t, ht⟩ := exists_step_of_running hr
  rw [run_add, run_succ_of_step ht, run_zero, ht]

end Sys2Proof.Machine
end

section
/-! The statements on the step and the run loop (spec/40_step_nop_halt.md). -/

namespace Sys2Proof.Machine

/-- Settles O14: a step of a running core completes, and a run is an iteration of `step` that ends where `running` is
false. -/
theorem runLoop : Obligations.RunLoop :=
  ⟨fun _ hr => exists_step_of_running hr, fun n _ _ h => run_succ_of_step h n, fun n _ hr => run_of_stopped hr n,
    run_add, fun _ _ hr _ hm => running_of_running_run hr hm, fun _ _ hr => step_run hr⟩

/-- Settles O7: the step's own cases, and under the invariant the fetched word is RAM's. -/
theorem stepRunsDecodedInstruction : Obligations.StepRunsDecodedInstruction :=
  ⟨fun s => ⟨rfl, fetch_frame s⟩, fun _ hi => fetch_value hi.coherent, fun _ _ hr hd => step_of_decode hr hd,
    fun _ hr hd => step_of_illegal hr hd,
    fun _ _ hi hr hd => step_of_decode hr ((fetch_value hi.coherent).symm ▸ hd),
    fun _ hr _ h => Bool.eq_false_iff.mp hr (step_cases h).1⟩

end Sys2Proof.Machine
end

section
/-! SUPPORT. Decoding of the formats with a 5-bit destination, and the ALU results as numbers (spec/41_alu.md). -/

namespace Sys2Proof.Machine

/-- The operands of a word whose opcode reads `data5`, `arg1` and `arg2` (formats R and C) are those bits of the word:
`hop` is the decoder's line for the opcode. -/
theorem decode_of_data5 {op : Nat} {mk : BitVec 5 → BitVec 5 → BitVec 5 → Instr}
    (hop : ∀ f : Fields, f.op.toNat = op → decodeFields f = some (mk (data5 f.data) f.arg1 f.arg2))
    (w : Word) (hw : w.toNat % 64 = op) :
    decode w = some (mk (w.extractLsb' 16 5) (w.extractLsb' 6 5) (w.extractLsb' 11 5)) := by
  have hfields : decode w = some (mk (data5 (splitWord w).data) (splitWord w).arg1 (splitWord w).arg2) :=
    hop (splitWord w) ((splitWord_op w).trans hw)
  rw [hfields, data5_splitWord]
  rfl

theorem aluAdd_toNat (a b : Word) : (aluAdd a b).toNat = (a.toNat + b.toNat) % 2 ^ 32 := BitVec.toNat_add a b

theorem aluSub_toNat (a b : Word) : (aluSub a b).toNat = (a.toNat + 2 ^ 32 - b.toNat) % 2 ^ 32 := by
  have hb := b.isLt
  have hcomm : 2 ^ 32 - b.toNat + a.toNat = a.toNat + 2 ^ 32 - b.toNat := by omega
  rw [aluSub, BitVec.toNat_sub, hcomm]

theorem aluLshift_toNat (a b : Word) : (aluLshift a b).toNat = (a.toNat * 2 ^ (b.toNat % 32)) % 2 ^ 32 := by
  rw [aluLshift, BitVec.toNat_shiftLeft, Nat.shiftLeft_eq]

theorem aluRshift_toNat (a b : Word) : (aluRshift a b).toNat = a.toNat / 2 ^ (b.toNat % 32) := by
  rw [aluRshift, BitVec.toNat_ushiftRight, Nat.shiftRight_eq_div_pow]

/-- An instruction of the ALU shape makes no access beyond its fetch. -/
theorem fetchOnly_of_aluInto {i : Instr} {f : Word → Word → Word} {rd ra rb : RegIdx}
    (h : ∀ s, exec i s = .next (aluInto f rd ra rb s)) : FetchOnly i := by
  refine fetchOnly_of fun s => ⟨_, h s, ?_⟩
  obtain ⟨-, -, -, -, hnoAccess, -⟩ := aluInto_effect f rd ra rb s
  exact hnoAccess

end Sys2Proof.Machine
end

section
/-! The statements on the ALU (spec/41_alu.md). -/

namespace Sys2Proof.Machine

/-- Settles O36: ADD is the ALU shape with the sum, which wraps at 2^32. -/
theorem addResult : Obligations.AddResult :=
  ⟨decode_of_data5 fun _ hop => by simp only [decodeFields, hop],
    fun rd ra rb s => ⟨_, _, rfl, aluAdd_toNat _ _, aluInto_effect aluAdd rd ra rb s⟩,
    fun _ _ _ => fetchOnly_of_aluInto fun _ => rfl⟩

/-- Settles O37: SUB is the ALU shape with the difference, which borrows from 2^32. -/
theorem subResult : Obligations.SubResult :=
  ⟨decode_of_data5 fun _ hop => by simp only [decodeFields, hop],
    fun rd ra rb s => ⟨_, _, rfl, aluSub_toNat _ _, aluInto_effect aluSub rd ra rb s⟩,
    fun _ _ _ => fetchOnly_of_aluInto fun _ => rfl⟩

/-- Settles O38: LSHIFT is the ALU shape with the product by a power of two, truncated to the word. -/
theorem lshiftResult : Obligations.LshiftResult :=
  ⟨decode_of_data5 fun _ hop => by simp only [decodeFields, hop],
    fun rd ra rb s => ⟨_, _, rfl, aluLshift_toNat _ _, aluInto_effect aluLshift rd ra rb s⟩,
    fun _ _ _ => fetchOnly_of_aluInto fun _ => rfl⟩

/-- Settles O39: RSHIFT is the ALU shape with the floor of the quotient by a power of two. -/
theorem rshiftResult : Obligations.RshiftResult :=
  ⟨decode_of_data5 fun _ hop => by simp only [decodeFields, hop],
    fun rd ra rb s => ⟨_, _, rfl, aluRshift_toNat _ _, aluInto_effect aluRshift rd ra rb s⟩,
    fun _ _ _ => fetchOnly_of_aluInto fun _ => rfl⟩

end Sys2Proof.Machine
end

section
/-! SUPPORT. The relations of the compares on the operands as numbers (spec/42_compare.md). -/

namespace Sys2Proof.Machine

theorem relEqual_eq_true_iff (a b : Word) : relEqual a b = true ↔ a.toNat = b.toNat := by
  rw [relEqual, beq_iff_eq, BitVec.toNat_inj]

theorem relGreater_eq_true_iff (a b : Word) : relGreater a b = true ↔ a.toNat > b.toNat := decide_eq_true_iff

theorem relLess_eq_true_iff (a b : Word) : relLess a b = true ↔ a.toNat < b.toNat := decide_eq_true_iff

/-- A COMPLST is the COMPGRT of the exchanged operands (R173). -/
theorem exec_complst_eq_exec_compgrt (sd : StatIdx) (ra rb : RegIdx) (s : State) :
    exec (.complst sd ra rb) s = exec (.compgrt sd rb ra) s := rfl

/-- An instruction of the compare shape makes no access beyond its fetch. -/
theorem fetchOnly_of_compareInto {i : Instr} {rel : Word → Word → Bool} {sd : StatIdx} {ra rb : RegIdx}
    (h : ∀ s, exec i s = .next (compareInto rel sd ra rb s)) : FetchOnly i := by
  refine fetchOnly_of fun s => ⟨_, h s, ?_⟩
  obtain ⟨-, -, -, -, hnoAccess, -⟩ := compareInto_effect rel sd ra rb s
  exact hnoAccess

end Sys2Proof.Machine
end

section
/-! The statements on the compares (spec/42_compare.md). -/

namespace Sys2Proof.Machine

/-- Settles O40: COMP is the compare shape with equality of the operands as numbers. -/
theorem compResult : Obligations.CompResult :=
  ⟨decode_of_data5 fun _ hop => by simp only [decodeFields, hop],
    fun sd ra rb s => ⟨_, _, rfl, relEqual_eq_true_iff _ _, compareInto_effect relEqual sd ra rb s⟩,
    fun _ _ _ => fetchOnly_of_compareInto fun _ => rfl⟩

/-- Settles O41: COMPGRT is the compare shape with the unsigned order. -/
theorem compgrtResult : Obligations.CompgrtResult :=
  ⟨decode_of_data5 fun _ hop => by simp only [decodeFields, hop],
    fun sd ra rb s => ⟨_, _, rfl, relGreater_eq_true_iff _ _, compareInto_effect relGreater sd ra rb s⟩,
    fun _ _ _ => fetchOnly_of_compareInto fun _ => rfl⟩

/-- Settles O42: COMPLST is the compare shape with the converse of COMPGRT's order. -/
theorem complstResult : Obligations.ComplstResult :=
  ⟨decode_of_data5 fun _ hop => by simp only [decodeFields, hop],
    fun sd ra rb s => ⟨_, _, rfl, relLess_eq_true_iff _ _, compareInto_effect relLess sd ra rb s,
      exec_complst_eq_exec_compgrt sd ra rb s⟩,
    fun _ _ _ => fetchOnly_of_compareInto fun _ => rfl⟩

end Sys2Proof.Machine
end

section
/-! SUPPORT. LOAD and STORE executed one after the other (spec/43_load_store.md section 4): what each leaves for the
next, and the splices of the two half-word STOREs. -/

namespace Sys2Proof.Machine

/-! ### The splices that appear in the laws -/

@[simp] theorem highHalf_joinHalves (hi lo : Half) : highHalf (joinHalves hi lo) = hi :=
  BitVec.extractLsb'_append_eq_left

@[simp] theorem lowHalf_joinHalves (hi lo : Half) : lowHalf (joinHalves hi lo) = lo :=
  BitVec.extractLsb'_append_eq_right

theorem splice_whole {f : Flags} (h : f.hlf = false) (src old : Word) : splice src old f = src := by
  rw [splice, h, if_neg Bool.false_ne_true]

theorem splice_low_into_low (src old : Word) (im : Bool) :
    splice src old ⟨true, false, false, false, im⟩ = joinHalves (highHalf old) (lowHalf src) := rfl

theorem splice_low_into_high (src old : Word) (im : Bool) :
    splice src old ⟨true, false, true, false, im⟩ = joinHalves (lowHalf src) (lowHalf old) := rfl

/-! ### One instruction, and two in a row -/

/-- A register write in `t` is one in any state with `t`'s registers. -/
theorem RegWritten.of_regs_eq {s t u : State} {rd : RegIdx} {v : Word} (h : RegWritten rd v t u)
    (hregs : t.regs = s.regs) : RegWritten rd v s u := by
  intro r
  rw [h r, readReg_congr hregs]

theorem storeSource_reg {f : Flags} (h : f.im = false) (iw : Word) (rA : RegIdx) (s : State) :
    storeSource iw f rA s = readReg s rA := by
  rw [storeSource, h, if_neg Bool.false_ne_true]

/-- What a LOAD does to the registers, in a state that meets the invariant. -/
theorem execLoad_next {s : State} (hi : Inv s) (rA : RegIdx) (f : Flags) (data : Addr) :
    ∃ u, exec (.load rA f data) s = .next u ∧ RegWritten rA
      (splice (if f.im then encode (.load rA f data) else s.ram.read data) (readReg s rA) f) s u := by
  refine ⟨_, exec_eq _ s, regWritten_of_regs ?_⟩
  rw [execState_regs, ← loadSource_value hi.coherent]
  rfl

/-- The word a STORE leaves at its address, in a state that meets the invariant. -/
theorem execStore_read {s : State} (hi : Inv s) (rA : RegIdx) (f : Flags) (data : Addr) :
    ∃ t, exec (.store rA f data) s = .next t ∧ Inv t ∧ t.regs = s.regs ∧ t.ram.read data =
      splice (storeSource (encode (.store rA f data)) f rA s) (s.ram.read data) f := by
  obtain ⟨t, ht, hit, hregs, -, -, hram⟩ := execStore_next hi rA f data
  exact ⟨t, ht, hit, hregs, by rw [hram, read_write hi.memory, if_pos rfl]⟩

/-- Two STOREs of registers to one address: the second splices into the word the first left there. -/
theorem execStore_twice_read {s : State} (hi : Inv s) (r₁ r₂ : RegIdx) (f₁ f₂ : Flags) (h₁ : f₁.im = false)
    (h₂ : f₂.im = false) (data : Addr) :
    ∃ t u, exec (.store r₁ f₁ data) s = .next t ∧ exec (.store r₂ f₂ data) t = .next u ∧
      u.ram.read data = splice (readReg s r₂) (splice (readReg s r₁) (s.ram.read data) f₁) f₂ := by
  obtain ⟨t, ht, hit, hregs, hread⟩ := execStore_read hi r₁ f₁ data
  obtain ⟨u, hu, -, -, hread'⟩ := execStore_read hit r₂ f₂ data
  refine ⟨t, u, ht, hu, ?_⟩
  rw [hread', hread, storeSource_reg h₁, storeSource_reg h₂, readReg_congr hregs]

end Sys2Proof.Machine
end

section
/-! The statements on LOAD and STORE (spec/43_load_store.md). -/

namespace Sys2Proof.Machine

/-- Settles O48: the STORE leaves the invariant, under which the LOAD's source is RAM's word, and of the two half-word
STOREs each keeps the half that the other writes. -/
theorem storeLoadLaws : Obligations.StoreLoadLaws := by
  refine ⟨fun rS rL f a b c addr s hi => ?_, fun rL rH addr s hi => ?_⟩
  · obtain ⟨t, ht, hit, hregs, hread⟩ := execStore_read hi rS f addr
    obtain ⟨u, hu, hwritten⟩ := execLoad_next hit rL ⟨false, a, b, c, false⟩ addr
    rw [splice_whole rfl] at hwritten
    refine ⟨t, u, ht, hu, hwritten.of_regs_eq hregs, fun hhlf him => ?_⟩
    rw [hread, splice_whole hhlf, storeSource_reg him]
  · obtain ⟨t, u, ht, hu, hlowFirst⟩ := execStore_twice_read hi rL rH
      ⟨true, false, false, false, false⟩ ⟨true, false, true, false, false⟩ rfl rfl addr
    obtain ⟨t', u', ht', hu', hhighFirst⟩ := execStore_twice_read hi rH rL
      ⟨true, false, true, false, false⟩ ⟨true, false, false, false, false⟩ rfl rfl addr
    refine ⟨t, u, t', u', ht, hu, ht', hu', ?_, ?_⟩
    · rw [hlowFirst, splice_low_into_high, splice_low_into_low, lowHalf_joinHalves]
    · rw [hhighFirst, splice_low_into_low, splice_low_into_high, highHalf_joinHalves]

end Sys2Proof.Machine
end

section
/-! SUPPORT. The end of a run as the host reads it: the readings of `runEnd`, and what a step does to the error latch
(spec/60_exceptions.md R263). -/

namespace Sys2Proof.Machine

theorem runEnd_eq_stillRunning_iff (s : State) : runEnd s = .stillRunning ↔ s.running = true := by
  unfold runEnd
  split
  · simp [*]
  · split <;> simp [*]

theorem runEnd_of_fault_none {s : State} (hf : s.fault = none) :
    runEnd s = if s.running then .stillRunning else .normal := by
  simp only [runEnd, hf]

theorem runEnd_raiseBadInstruction (s : State) (iw : Word) :
    runEnd (raiseBadInstruction s iw) = .byFault { pc := s.pc, iw := iw } := rfl

theorem fault_eq_none_of_running {s : State} (hl : LatchStops s) (hr : s.running = true) : s.fault = none := by
  by_contra hf
  exact Bool.false_ne_true ((hl hf).symm.trans hr)

/-- No instruction touches the error latch. -/
theorem execState_fault (i : Instr) (s : State) : (execState i s).fault = s.fault := by
  cases i with
  | nop | halt | add | sub | lshift | rshift | comp | compgrt | complst => rfl
  | load | store | print => simp [execState]
  | jmp =>
    simp only [execState]
    split <;> rfl

/-- How a run stands after a step from a state with no error latched, by what the step fetched. -/
theorem runEnd_of_step {s t : State} (hl : LatchStops s) (h : step s = .next t) :
    (∃ i, decode (fetch s).1 = some i ∧ runEnd t = if i = .halt then .normal else .stillRunning) ∨
    (decode (fetch s).1 = none ∧ runEnd t = .byFault { pc := s.pc, iw := (fetch s).1 }) := by
  obtain ⟨hr, ⟨i, hd, ht⟩ | ⟨hd, rfl⟩⟩ := step_cases h
  · refine .inl ⟨i, hd, ?_⟩
    have hf : (execState i (fetch s).2).fault = none := by
      rw [execState_fault, fetch_fault, fault_eq_none_of_running hl hr]
    rw [exec_next ht, runEnd_of_fault_none hf, execState_running, fetch_running, hr, runningAfter]
    split <;> rfl
  · exact .inr ⟨hd, by rw [runEnd_raiseBadInstruction, fetch_pc]⟩

end Sys2Proof.Machine
end

section
/-! The statement on the end of a run (spec/60_exceptions.md). -/

namespace Sys2Proof.Machine

/-- Settles O15, by what the step fetched: a HALT, another instruction, or a word with no defined opcode. -/
theorem runEndReading : Obligations.RunEndReading := by
  intro s t hi h
  refine ⟨runEnd_eq_stillRunning_iff t, ?_⟩
  obtain ⟨i, hd, hend⟩ | ⟨hd, hend⟩ := runEnd_of_step hi.latch h
  · by_cases hhalt : i = .halt
    · simp [hd, hend, hhalt]
    · simp [hd, hend, hhalt]
  · simp [hd, hend, eq_comm]

end Sys2Proof.Machine
end

section
/-! SUPPORT. An observer, a trace and a tracker, may be exchanged for any other: each operation does the same to
everything else and reports the same events (spec/70_reset_and_hazards.md R295). -/

namespace Sys2Proof.Machine

/-! ### Exchanging the observer -/

/-- What has been observed so far: the trace, and the tracker that reads it. -/
structure Observer where
  trace   : List Event
  tracker : Tracker

/-- The observer after it has seen further events, oldest first. -/
def Observer.after (o : Observer) (es : List Event) : Observer :=
  { trace := o.trace ++ es, tracker := es.foldl observe o.tracker }

/-- `s` watched by another observer. -/
def State.withObserver (s : State) (o : Observer) : State := { s with trace := o.trace, tracker := o.tracker }

/-- The observer a state comes with. -/
def State.observer (s : State) : Observer := { trace := s.trace, tracker := s.tracker }

@[simp] theorem withObserver_observer (s : State) : s.withObserver s.observer = s := rfl

@[simp] theorem Observer.after_nil (o : Observer) : o.after [] = o := by simp [Observer.after]

@[simp] theorem Observer.after_after (o : Observer) (es fs : List Event) :
    (o.after es).after fs = o.after (es ++ fs) := by
  simp [Observer.after, List.foldl_append]

theorem Observer.after_pair (o : Observer) (d e : Event) : o.after [d, e] = (o.after [d]).after [e] :=
  (o.after_after [d] [e]).symm

@[simp] theorem withObserver_pc (s : State) (o : Observer) : (s.withObserver o).pc = s.pc := rfl

@[simp] theorem cacheSet_withObserver (s : State) (o : Observer) (st : SetIdx) :
    cacheSet (s.withObserver o) st = cacheSet s st := rfl

@[simp] theorem readReg_withObserver (s : State) (o : Observer) (q : RegIdx) :
    readReg (s.withObserver o) q = readReg s q := rfl

theorem emit_withObserver (s : State) (o : Observer) (e : Event) :
    emit (s.withObserver o) e = (emit s e).withObserver (o.after [e]) := rfl

/-! ### The way of a second access -/

/-- A lookup finds the way that matches when no other way does. -/
theorem lookup_eq_some_of_only {c : CacheSet} {tg : Tag} {w : WayIdx} (hv : (wayOf c w).valid = true)
    (ht : (wayOf c w).tag = tg) (honly : ∀ w', (wayOf c w').valid = true → (wayOf c w').tag = tg → w' = w) :
    lookup c tg = some w := by
  cases h : lookup c tg with
  | none => exact absurd ht (lookup_none.1 h w hv)
  | some w' =>
    obtain ⟨hv', ht'⟩ := lookup_some h
    rw [honly w' hv' ht']

/-- After a read the word is in the way that the read ended in, in every state. -/
theorem lookup_memRead (k : AccessKind) (a : Addr) (s : State) :
    lookup (cacheSet (memRead k a s).2 (setIdxOf a)) (tagOf a) = some (accessWay a s) := by
  cases h : lookup (cacheSet s (setIdxOf a)) (tagOf a) with
  | some w =>
    have hways : ∀ w', wayOf (cacheSet (memRead k a s).2 (setIdxOf a)) w' = wayOf (cacheSet s (setIdxOf a)) w' := by
      simp [wayOf_memRead, h]
    simp only [accessWay, h]
    simpa only [lookup, hways] using h
  | none =>
    refine lookup_eq_some_of_only ?_ ?_ fun w' hv ht => ?_
    · simp [wayOf_memRead, h]
    · simp [wayOf_memRead, h]
    · by_contra hne
      simp only [wayOf_memRead, hne, and_false, if_false] at hv ht
      exact lookup_none.1 h w' hv ht

/-- A write of the word just read hits the way of the read. -/
theorem writeEvents_memRead (k : AccessKind) (a : Addr) (s : State) :
    writeEvents a (memRead k a s).2 = [.hit a, .writeCache (setIdxOf a) (accessWay a s)] := by
  simp [writeEvents, lookup_memRead]

/-! ### Accesses under another observer -/

theorem memRead_data_withObserver (a : Addr) (s : State) (o : Observer) :
    memRead .data a (s.withObserver o) =
      ((memRead .data a s).1, (memRead .data a s).2.withObserver (o.after (readEvents a s))) := by
  cases h : lookup (cacheSet s (setIdxOf a)) (tagOf a) with
  | some w => simp only [readEvents, memRead, cacheSet_withObserver, h]; rfl
  | none => simp only [readEvents, memRead, cacheSet_withObserver, h, Observer.after_pair]; rfl

theorem memWrite_withObserver (a : Addr) (v : Word) (s : State) (o : Observer) :
    memWrite a v (s.withObserver o) = (memWrite a v s).withObserver (o.after (writeEvents a s)) := by
  cases h : lookup (cacheSet s (setIdxOf a)) (tagOf a) with
  | some w | none => simp only [writeEvents, memWrite, cacheSet_withObserver, h, Observer.after_pair]; rfl

theorem fetch_withObserver (s : State) (o : Observer) :
    fetch (s.withObserver o) = ((fetch s).1, (fetch s).2.withObserver (o.after (fetchEvents s))) := by
  cases h : lookup (cacheSet s (setIdxOf s.pc)) (tagOf s.pc) with
  | some w =>
    simp only [fetchEvents, fetch, memRead, withObserver_pc, emit_withObserver, cacheSet_withObserver, cacheSet_emit, h]
    rfl
  | none =>
    simp only [fetchEvents, fetch, memRead, withObserver_pc, emit_withObserver, cacheSet_withObserver, cacheSet_emit, h,
      Observer.after_pair]
    rfl

theorem loadSource_withObserver (iw : Word) (f : Flags) (data : Addr) (s : State) (o : Observer) :
    loadSource iw f data (s.withObserver o) = ((loadSource iw f data s).1,
      (loadSource iw f data s).2.withObserver (o.after (if f.im then [] else readEvents data s))) := by
  unfold loadSource
  split
  · rw [Observer.after_nil]
  · exact memRead_data_withObserver ..

/-! ### An instruction and a step under another observer -/

/-- A STORE's accesses: the read of the old word, where it makes one, and then the write. -/
theorem storeOld_memWrite_withObserver (f : Flags) (data : Addr) (v : Word → Word) (s : State) (o : Observer) :
    memWrite data (v (storeOld f data (s.withObserver o)).1) (storeOld f data (s.withObserver o)).2 =
      (memWrite data (v (storeOld f data s).1) (storeOld f data s).2).withObserver (o.after
        (if f.hlf && !f.ow then
          readEvents data s ++ [.hit data, .writeCache (setIdxOf data) (accessWay data s)]
        else writeEvents data s)) := by
  unfold storeOld
  split
  · rw [memRead_data_withObserver, memWrite_withObserver, writeEvents_memRead, Observer.after_after]
  · exact memWrite_withObserver ..

/-- What an instruction does under another observer: the same to everything else, and the same events. -/
theorem execState_withObserver (i : Instr) (s : State) (o : Observer) :
    execState i (s.withObserver o) = (execState i s).withObserver (o.after (dataEvents i s)) := by
  cases i with
  | nop | halt | add | sub | lshift | rshift | comp | compgrt | complst =>
    rw [dataEvents, Observer.after_nil]; rfl
  | jmp si onHigh dec disp =>
    rw [dataEvents, Observer.after_nil]
    have htaken : jmpTaken si onHigh (s.withObserver o) = jmpTaken si onHigh s := rfl
    simp only [execState, htaken]
    split <;> rfl
  | load rA f data => simp only [execState, loadSource_withObserver]; rfl
  | store rA f data =>
    exact congrArg advance (storeOld_memWrite_withObserver f data
      (splice (storeSource (encode (.store rA f data)) f rA s) · f) s o)
  | print ra rb data =>
    simp only [execState, dataEvents, memRead_data_withObserver, readReg_withObserver, emit_withObserver,
      Observer.after_after, readReg_congr (memRead_regs ..)]
    rfl

/-- What a step does under another observer. -/
theorem step_withObserver {s t : State} (h : step s = .next t) (o : Observer) :
    step (s.withObserver o) = .next (t.withObserver (o.after (stepEvents s))) := by
  have hword : (fetch (s.withObserver o)).1 = (fetch s).1 := by rw [fetch_withObserver]
  obtain ⟨hr, ⟨i, hd, ht⟩ | ⟨hd, rfl⟩⟩ := step_cases h
  · rw [step_of_decode (s := s.withObserver o) hr (hword ▸ hd), exec_eq, fetch_withObserver, execState_withObserver,
      exec_next ht, Observer.after_after]
    simp only [stepEvents, hd]
  · rw [step_of_illegal (s := s.withObserver o) hr (hword ▸ hd), fetch_withObserver]
    simp only [stepEvents, hd]
    rfl

/-- A step's own observer sees the events of the step and nothing else. -/
theorem observed_step {s t : State} (h : step s = .next t) : Observed s t (stepEvents s) := by
  have hself := step_withObserver h s.observer
  rw [withObserver_observer, h] at hself
  injection hself with hself
  exact ⟨congrArg State.trace hself, congrArg State.tracker hself⟩

end Sys2Proof.Machine
end

section
/-! SUPPORT. How long a list can be that rises strictly by a bounded key: the sizes of the tracker's two sets
(spec/70_reset_and_hazards.md R296). -/

namespace Sys2Proof.Machine

theorem nodup_of_rising {α : Type} {key : α → Nat} {l : List α} (h : l.Pairwise (fun p q => key p < key q)) :
    l.Nodup :=
  h.imp fun hlt => ne_of_apply_ne key hlt.ne

/-- A rising list is no longer than the range of its keys. -/
theorem length_le_of_rising {α : Type} {key : α → Nat} {n : Nat} (hkey : ∀ x, key x < n) {l : List α}
    (h : l.Pairwise (fun p q => key p < key q)) : l.length ≤ n := by
  have hnodup : (l.map key).Nodup := List.pairwise_map.2 (h.imp Nat.ne_of_lt)
  have hsub : l.map key ⊆ List.range n := by
    intro k hk
    obtain ⟨x, -, rfl⟩ := List.mem_map.1 hk
    exact List.mem_range.2 (hkey x)
  simpa using (List.subperm_of_subset hnodup hsub).length_le

theorem locationKey_lt (p : SetIdx × WayIdx) : locationKey p < 256 := by
  have hset := p.1.isLt
  have hway := p.2.isLt
  unfold locationKey
  omega

theorem addrKey_lt (a : Addr) : addrKey a < 65536 := a.isLt

end Sys2Proof.Machine
end

section
/-! The statements on the tracker (spec/70_reset_and_hazards.md). -/

namespace Sys2Proof.Machine

/-- Settles O54, by `step_withObserver` for the other observer and `observed_step` for the state's own. -/
theorem coreUnawareOfTracker : Obligations.CoreUnawareOfTracker := by
  intro s t tr tk h
  obtain ⟨htrace, htracker⟩ := observed_step h
  exact ⟨_, stepEvents s, step_withObserver h ⟨tr, tk⟩, rfl, htrace, rfl, htracker, rfl⟩

/-- Settles O56: the two sets rise by keys below 256 and 65 536, so their sizes fit 32 bits. -/
theorem costReportFields : Obligations.CostReportFields := by
  intro t ⟨hlocations, haddrs⟩
  have hcache := length_le_of_rising locationKey_lt hlocations
  have hram := length_le_of_rising addrKey_lt haddrs
  refine ⟨rfl, ?_, ?_, hcache, hram, nodup_of_rising hlocations, nodup_of_rising haddrs⟩
  · exact (BitVec.toNat_ofNat ..).trans (Nat.mod_eq_of_lt (by omega))
  · exact (BitVec.toNat_ofNat ..).trans (Nat.mod_eq_of_lt (by omega))

end Sys2Proof.Machine
end

section
/-! SUPPORT. What `execState_withFiles` does not say of an instruction: the accesses it makes and the `pc` it
leaves. -/

namespace Sys2Proof.Machine

/-! ### The accesses of an instruction -/

/-- The state after the accesses and the PRINT event of an instruction, before its registers, status bits, `pc` and
`running` change. -/
def accessState (i : Instr) (s : State) : State :=
  match i with
  | .load rA f data => (loadSource (encode (.load rA f data)) f data s).2
  | .store rA f data =>
    memWrite data (splice (storeSource (encode (.store rA f data)) f rA s) (storeOld f data s).1 f)
      (storeOld f data s).2
  | .print ra rb data =>
    emit (memRead .data data s).2
      (.print (readReg (memRead .data data s).2 ra) (readReg (memRead .data data s).2 rb) (memRead .data data s).1)
  | _ => s

/-- RAM and what an access writes are after an instruction as its accesses left them. -/
theorem execState_accesses (i : Instr) (s : State) :
    (execState i s).ram = (accessState i s).ram ∧ AccessOf (accessState i s) (execState i s) := by
  cases i with
  | jmp si onHigh dec disp =>
    simp only [execState]
    split <;> exact ⟨rfl, rfl, rfl, rfl⟩
  | _ => exact ⟨rfl, rfl, rfl, rfl⟩

theorem execState_ram (i : Instr) (s : State) : (execState i s).ram = (accessState i s).ram :=
  (execState_accesses i s).1

theorem execState_accessOf (i : Instr) (s : State) : AccessOf (accessState i s) (execState i s) :=
  (execState_accesses i s).2

theorem inv_accessState {s : State} (hi : Inv s) (i : Instr) : Inv (accessState i s) := by
  cases i with
  | load rA f data => exact inv_loadSource hi _ f data
  | store rA f data => exact inv_memWrite (inv_storeOld hi f data) data _
  | print ra rb data => exact inv_emit (inv_memRead hi .data data) _
  | _ => exact hi

/-! ### The program counter -/

/-- The `pc` an instruction leaves (spec/10_state.md R28, spec/44_jump.md R221). -/
def nextPc (i : Instr) (s : State) : Addr :=
  match i with
  | .jmp si onHigh dec disp => if jmpTaken si onHigh s then jmpTarget dec disp s else s.pc + 1
  | _ => s.pc + 1

theorem execState_pc (i : Instr) (s : State) : (execState i s).pc = nextPc i s := by
  cases i with
  | jmp si onHigh dec disp => exact apply_ite State.pc _ _ _
  | load | store | print => simp [execState, nextPc]
  | _ => rfl

theorem nextPc_toNat (i : Instr) (s : State) : (nextPc i s).toNat = pcAfter i s := by
  have hdefault : (s.pc + 1).toNat = (s.pc.toNat + 1) % 65536 := BitVec.toNat_add s.pc 1
  cases i with
  | jmp si onHigh dec disp =>
    simp only [nextPc, pcAfter, apply_ite BitVec.toNat, jmpTarget_toNat, jmpTaken, beq_iff_eq, hdefault]
  | _ => exact hdefault

end Sys2Proof.Machine
end

section
/-! SUPPORT. An instruction and BadInstruction keep the invariant (spec/20_memory.md section 5). -/

namespace Sys2Proof.Machine

/-- An instruction cannot start a stopped core, so an error that is latched stays one of a stopped core. -/
theorem latchStops_execState {s : State} (hl : LatchStops s) (i : Instr) : LatchStops (execState i s) := by
  intro hf
  rw [execState_fault] at hf
  rw [execState_running, hl hf, runningAfter, ite_self]

theorem inv_execState {s : State} (hi : Inv s) (i : Instr) : Inv (execState i s) := by
  obtain ⟨hram, hcache, -, htracker⟩ := execState_accesses i s
  have ha := inv_accessState hi i
  refine inv_congr ha hram hcache (latchStops_execState hi.latch i) (htracker ▸ ha.sets) fun p hp => ?_
  rwa [htracker]

theorem inv_raiseBadInstruction {s : State} (hi : Inv s) (iw : Word) : Inv (raiseBadInstruction s iw) :=
  inv_congr hi rfl rfl (fun _ => rfl) hi.sets (fun _ h => h)

end Sys2Proof.Machine
end

section
/-! The statement on the invariant (spec/20_memory.md section 5). -/

namespace Sys2Proof.Machine

/-- Settles O23: the fetch keeps the invariant, and so do an instruction and BadInstruction. -/
theorem stepKeepsInvariant : Obligations.StepKeepsInvariant := by
  intro s t hi h
  obtain ⟨-, ⟨i, -, ht⟩ | ⟨-, rfl⟩⟩ := step_cases h
  · exact exec_next ht ▸ inv_execState (inv_fetch hi) i
  · exact inv_raiseBadInstruction (inv_fetch hi) _

end Sys2Proof.Machine
end

section
/-! SUPPORT. The machine over plain RAM (spec/20_memory.md R73): what the fetch and an instruction do to the
architectural part of the state. -/

namespace Sys2Proof.Machine

theorem flatOf_fetch (s : State) : flatOf (fetch s).2 = flatOf s := by
  simp [flatOf]

/-- The commuting square of an instruction: in a coherent state the cache answers what RAM holds. For a LOAD or a STORE
`iw` is the instruction's own word. -/
theorem flatOf_execState {s : State} (hc : Coherent s) {i : Instr} {iw : Word} (hd : decode iw = some i) :
    flatOf (execState i s) = flatExec i iw (flatOf s) := by
  cases i with
  | load rA f data =>
    simp [execState, flatExec, flatOf, encode_of_decode_load hd, loadSource_value hc, readReg_eq]
  | store rA f data =>
    simp [execState, flatExec, flatOf, encode_of_decode_store hd, splice_storeOld hc, storeSource, readReg_eq]
  | jmp si onHigh dec disp =>
    simp only [execState, flatExec, jmpTaken, jmpTarget, readStatus, beq_iff_eq]
    split
    · next htaken => simp [flatOf, htaken]
    · next htaken => simp [flatOf, htaken]
  | print ra rb data => simp [execState, flatExec, flatOf]
  | _ => rfl

theorem flatStep_of_decode {f : FlatState} {i : Instr} (hr : f.running = true)
    (hd : decode (f.ram.read f.pc) = some i) : flatStep f = .next (flatExec i (f.ram.read f.pc) f) := by
  simp [flatStep, hr, hd]

theorem flatStep_of_illegal {f : FlatState} (hr : f.running = true) (hd : decode (f.ram.read f.pc) = none) :
    flatStep f = .next { f with fault := some { pc := f.pc, iw := f.ram.read f.pc }, running := false } := by
  simp [flatStep, hr, hd]

theorem flatStep_of_stopped {s : State} (hr : s.running = false) : flatStep (flatOf s) = .fault (stopReason s) := by
  have hf : (flatOf s).fault = s.fault := rfl
  have hrun : ¬ (flatOf s).running = true := Bool.eq_false_iff.mp hr
  rw [flatStep, if_neg hrun, hf, stopReason]
  cases s.fault <;> rfl

end Sys2Proof.Machine
end

section
/-! The statement on transparency (spec/20_memory.md R73). -/

namespace Sys2Proof.Machine

/-- Settles O26: both machines fetch RAM's word at `pc`, and each outcome of a step commutes with `flatOf`. -/
theorem cacheIsTransparent : Obligations.CacheIsTransparent := by
  intro s hi
  have hword : (fetch s).1 = (flatOf s).ram.read (flatOf s).pc := fetch_value hi.coherent
  cases hr : s.running with
  | false =>
    rw [step_of_stopped hr]
    exact flatStep_of_stopped hr
  | true =>
    cases hd : decode (fetch s).1 with
    | some i =>
      rw [step_of_decode hr hd, exec_eq]
      show flatStep (flatOf s) = .next (flatOf (execState i (fetch s).2))
      rw [flatOf_execState (inv_fetch hi).coherent hd, flatOf_fetch, hword]
      exact flatStep_of_decode hr (hword ▸ hd)
    | none =>
      rw [step_of_illegal hr hd]
      show flatStep (flatOf s) = .next (flatOf (raiseBadInstruction (fetch s).2 (fetch s).1))
      rw [flatStep_of_illegal hr (hword ▸ hd), ← hword]
      simp [flatOf]

end Sys2Proof.Machine
end

section
/-! The round trips of the encoding (spec/30_encoding.md). -/

namespace Sys2Proof

/-- Settles O29: the opcode of the encoding selects the instruction's own line of the decoder, and each operand is read
back from the field it was put in. -/
theorem decodeEncodeRoundTrip : Obligations.DecodeEncodeRoundTrip := by
  intro i
  rw [encode, decode_joinFields]
  cases i with
  | nop | halt | print => rfl
  | add | sub | lshift | rshift | comp | compgrt | complst => simp [encodeFields, decodeFields, data5_fromData5]
  | load | store => simp [encodeFields, decodeFields, flagsOf_flagsBits]
  | jmp => simp [encodeFields, decodeFields, jmpBits_onHigh, jmpBits_dec]

end Sys2Proof
end

section
/-! SUPPORT. The registers and the cache after a reset (spec/10_state.md R36). -/

namespace Sys2Proof.Machine

theorem readRegs_replicate_zero {i : RegIdx} (h : 2 ≤ i.toNat) : readRegs (Vector.replicate 30 0) i = 0 := by
  rw [readRegs_stored _ _ h, Vector.getElem_replicate]

theorem cacheSet_applyReset (s : State) (st : SetIdx) : cacheSet (applyReset s) st = CacheSet.empty :=
  Vector.getElem_replicate _

theorem wayOf_empty (w : WayIdx) : wayOf CacheSet.empty w = Way.invalid :=
  Vector.getElem_replicate _

/-- Reset leaves no valid way. -/
theorem applyReset_way_invalid (s : State) (st : SetIdx) (w : WayIdx) :
    (wayOf (cacheSet (applyReset s) st) w).valid = false := by
  rw [cacheSet_applyReset, wayOf_empty]
  rfl

end Sys2Proof.Machine
end

section
/-! The statements on `pc`, the end of a run and reset (spec/10_state.md, spec/40_step_nop_halt.md). -/

namespace Sys2Proof.Machine

/-- Settles O9: `nextPc` as a number, and BadInstruction leaves the `pc` that the fetch left. -/
theorem pcAfterStep : Obligations.PcAfterStep := by
  refine ⟨fun i s t h => ?_, fun s t h hd => ?_⟩
  · rw [exec_next h, execState_pc, nextPc_toNat]
  · have hr := (step_cases h).1
    rw [step_of_illegal hr hd] at h
    injection h with h
    rw [← h, raiseBadInstruction_pc, fetch_pc]

/-- Settles O8, by the two readings of the latch in `stopReason`. -/
theorem stoppedCoreTakesNoStep : Obligations.StoppedCoreTakesNoStep := by
  intro s hr
  rw [step_of_stopped hr, stopReason]
  exact ⟨fun hf => by rw [hf], fun e hf => by rw [hf]⟩

/-- Settles O1: each field of `applyReset` is a constant or RAM as it was, and a power-on empties RAM first. -/
theorem resetValues : Obligations.ResetValues :=
  ⟨fun s => ⟨fun _ hi => readRegs_replicate_zero hi, rfl, rfl, fun _ => Vector.getElem_replicate _, rfl, rfl, rfl,
      applyReset_way_invalid s, fun st => by rw [cacheSet_applyReset]; rfl, rfl, rfl, rfl, rfl, rfl⟩,
    fun _ => ⟨rfl, fun _ => rfl⟩⟩

end Sys2Proof.Machine
end

section
/-! SUPPORT. A valid way stays valid through every operation but reset (spec/70_reset_and_hazards.md section 2). -/

namespace Sys2Proof.Machine

/-- Every way that is valid in `s` is valid in `t`. -/
def ValidKept (s t : State) : Prop :=
  ∀ st w, (wayOf (cacheSet s st) w).valid = true → (wayOf (cacheSet t st) w).valid = true

theorem ValidKept.trans {s t u : State} (h : ValidKept s t) (h' : ValidKept t u) : ValidKept s u :=
  fun st w hv => h' st w (h st w hv)

theorem validKept_of_cache_eq {s t : State} (h : t.cache = s.cache) : ValidKept s t :=
  fun st w hv => by rwa [cacheSet_congr h]

theorem validKept_memRead (k : AccessKind) (a : Addr) (s : State) : ValidKept s (memRead k a s).2 := by
  intro st w hv
  rw [wayOf_memRead]
  split
  · rfl
  · exact hv

theorem validKept_memWrite (a : Addr) (v : Word) (s : State) : ValidKept s (memWrite a v s) := by
  intro st w hv
  rw [wayOf_memWrite]
  split
  · rfl
  · exact hv

theorem validKept_fetch (s : State) : ValidKept s (fetch s).2 :=
  validKept_memRead .fetch s.pc (emit s (.fetch s.pc))

theorem validKept_execState (i : Instr) (s : State) : ValidKept s (execState i s) := by
  have haccess : ValidKept s (accessState i s) := by
    cases i with
    | load rA f data =>
      simp only [accessState, loadSource]
      split
      · exact validKept_of_cache_eq rfl
      · exact validKept_memRead .data data s
    | store rA f data =>
      refine ValidKept.trans ?_ (validKept_memWrite data _ (storeOld f data s).2)
      unfold storeOld
      split
      · exact validKept_memRead .data data s
      · exact validKept_of_cache_eq rfl
    | print ra rb data => exact validKept_memRead .data data s
    | _ => exact validKept_of_cache_eq rfl
  exact haccess.trans (validKept_of_cache_eq (execState_accessOf i s).1)

/-- A step keeps the ways that its fetch left valid. -/
theorem validKept_fetch_step {s t : State} (h : step s = .next t) : ValidKept (fetch s).2 t := by
  obtain ⟨-, ⟨i, -, ht⟩ | ⟨-, rfl⟩⟩ := step_cases h
  · exact exec_next ht ▸ validKept_execState i (fetch s).2
  · exact validKept_of_cache_eq rfl

end Sys2Proof.Machine
end

section
/-! The statements on BadInstruction and the latch (spec/60_exceptions.md, spec/70_reset_and_hazards.md section 2). -/

namespace Sys2Proof.Machine

/-- Settles O11: the state is the fetch's with the error latched, and the fetch changes no register, status bit or word
of RAM. -/
theorem badInstructionTaken : Obligations.BadInstructionTaken := by
  intro s hr hd
  refine ⟨_, step_of_illegal hr hd, ?_, rfl, fetch_pc s, readReg_congr (fetch_regs s),
    readStatus_congr (fetch_status s), fun a => ?_, ⟨rfl, rfl, rfl⟩, fetch_trace s, fetch_cycles s, ?_⟩
  · rw [raiseBadInstruction_fault, fetch_pc]
  · rw [raiseBadInstruction_ram, fetch_ram]
  · rw [step_of_stopped rfl, stopReason, raiseBadInstruction_fault, fetch_pc]

/-- Settles O12: no instruction touches the latch, so a step that changes it took BadInstruction. -/
theorem onlyIllegalOpcodesRaise : Obligations.OnlyIllegalOpcodesRaise := by
  refine ⟨fun i s => ⟨_, exec_eq i s, execState_fault i s⟩, fun s t h hne => ?_⟩
  obtain ⟨-, ⟨i, -, ht⟩ | ⟨hd, -⟩⟩ := step_cases h
  · exact absurd (by rw [exec_next ht, execState_fault, fetch_fault]) hne
  · exact hd

/-- Settles O13: an instruction leaves the latch, BadInstruction sets it, and the accesses only make ways valid. -/
theorem onlyResetUndoes : Obligations.OnlyResetUndoes := by
  intro s t h
  refine ⟨(step_cases h).1, fun hf => ?_, (validKept_fetch s).trans (validKept_fetch_step h)⟩
  obtain ⟨-, ⟨i, -, ht⟩ | ⟨-, rfl⟩⟩ := step_cases h
  · rwa [exec_next ht, execState_fault, fetch_fault]
  · exact Option.some_ne_none _

end Sys2Proof.Machine
end

section
/-! SUPPORT. The PLRU tree: the bits of its victim (spec/20_memory.md R60, R61). -/

namespace Sys2Proof.Machine

theorem ofBool_append_toNat (a b c : Bool) :
    (BitVec.ofBool a ++ BitVec.ofBool b ++ BitVec.ofBool c).toNat = 4 * a.toNat + 2 * b.toNat + c.toNat := by
  revert a b c; decide

theorem ofBool_append_getLsbD_two (a b c : Bool) :
    (BitVec.ofBool a ++ BitVec.ofBool b ++ BitVec.ofBool c).getLsbD 2 = a := by
  revert a b c; decide

/-- The root bit is the high bit of the victim. -/
theorem victim_getLsbD_two (p : Plru) : (victim p).getLsbD 2 = p.b0 := ofBool_append_getLsbD_two _ _ _

/-- A touch turns the root away from the way, so the next victim is in the other half of the set. -/
theorem victim_touch_ne (p : Plru) (w : WayIdx) : victim (touch p w) ≠ w := by
  intro h
  have hbit : (victim (touch p w)).getLsbD 2 = !w.getLsbD 2 := victim_getLsbD_two (touch p w)
  rw [h] at hbit
  exact Bool.self_ne_not _ hbit

/-- The bits on the path to a way do not depend on what they held. -/
theorem touch_touch (p : Plru) (w : WayIdx) : touch (touch p w) w = touch p w := by
  unfold touch
  cases w.getLsbD 2 <;> cases w.getLsbD 1 <;> rfl

end Sys2Proof.Machine
end

section
/-! SUPPORT. An access in the words of the statements: `InCache`, and the events of a read of either kind. -/

namespace Sys2Proof.Machine

theorem lookup_eq_none_of_not_inCache {a : Addr} {s : State} (h : ¬ InCache a s) :
    lookup (cacheSet s (setIdxOf a)) (tagOf a) = none :=
  lookup_none.2 fun w hv ht => h ⟨w, hv, ht⟩

theorem accessWay_of_lookup_some {a : Addr} {s : State} {w : WayIdx}
    (h : lookup (cacheSet s (setIdxOf a)) (tagOf a) = some w) : accessWay a s = w := by
  rw [accessWay, h]

theorem accessWay_of_lookup_none {a : Addr} {s : State}
    (h : lookup (cacheSet s (setIdxOf a)) (tagOf a) = none) :
    accessWay a s = victim (cacheSet s (setIdxOf a)).plru := by
  rw [accessWay, h]

theorem emitIfData_trace (k : AccessKind) (s : State) (e : Event) :
    (emitIfData k s e).trace = s.trace ++ if k = .data then [e] else [] := by
  cases k <;> simp

/-- A read touches only the cache, the trace and the tracker. -/
theorem memRead_eq_withAccess (k : AccessKind) (a : Addr) (s : State) : (memRead k a s).2 =
    { s with cache := (memRead k a s).2.cache, trace := (memRead k a s).2.trace,
             tracker := (memRead k a s).2.tracker } :=
  state_ext (memRead_regs k a s) (memRead_status k a s) (memRead_pc k a s) (memRead_running k a s)
    (memRead_fault k a s) (memRead_ram k a s) rfl rfl rfl

/-- A write touches RAM besides. -/
theorem memWrite_eq_withAccess (a : Addr) (v : Word) (s : State) : memWrite a v s =
    { s with ram := (memWrite a v s).ram, cache := (memWrite a v s).cache, trace := (memWrite a v s).trace,
             tracker := (memWrite a v s).tracker } :=
  state_ext (memWrite_regs a v s) (memWrite_status a v s) (memWrite_pc a v s) (memWrite_running a v s)
    (memWrite_fault a v s) rfl rfl rfl rfl

theorem plru_memRead_same (k : AccessKind) (a : Addr) (s : State) :
    (cacheSet (memRead k a s).2 (setIdxOf a)).plru = touch (cacheSet s (setIdxOf a)).plru (accessWay a s) := by
  rw [plru_memRead, if_pos rfl]

theorem plru_memWrite_same (a : Addr) (v : Word) (s : State) :
    (cacheSet (memWrite a v s) (setIdxOf a)).plru = touch (cacheSet s (setIdxOf a)).plru (accessWay a s) := by
  rw [plru_memWrite, if_pos rfl]

end Sys2Proof.Machine
end

section
/-! The statements on RAM, the PLRU tree and the accesses (spec/20_memory.md sections 1 to 5). -/

namespace Sys2Proof.Machine

/-- Settles O16, by the rules of RAM: the form is kept, a read after a write, and extensionality. -/
theorem memoryReadAfterWrite : Obligations.MemoryReadAfterWrite :=
  ⟨fun _ a b v h => ⟨write_wf h a v, read_write h a b v⟩, fun _ _ h h' => memory_ext h h'⟩

/-- Settles O18: the table is `touch` evaluated at each way. -/
theorem touchWritesPath : Obligations.TouchWritesPath :=
  fun p => ⟨rfl, rfl, rfl, rfl, rfl, rfl, rfl, rfl, touch_touch p⟩

/-- Settles O19, by the root bit and the bit below it, which choose the node read next. -/
theorem victimFollowsTree : Obligations.VictimFollowsTree := by
  intro p
  rw [victim, ofBool_append_toNat]
  cases p.b0
  · rfl
  · rfl

/-- Settles O20: the way of an access is the touched one. -/
theorem touchedWayNotNextVictim : Obligations.TouchedWayNotNextVictim :=
  ⟨fun k a s => plru_memRead_same k a s ▸ victim_touch_ne _ _,
    fun a v s => plru_memWrite_same a v s ▸ victim_touch_ne _ _⟩

/-- Settles O21: where tags are unique a matching way is the one the lookup names; without one the lookup misses. -/
theorem readAccess : Obligations.ReadAccess := by
  intro k a s
  refine ⟨fun w hu hv ht => ?_, fun hmiss => ?_, plru_memRead k a s, memRead_eq_withAccess k a s⟩
  · have hl := lookup_eq_some hu hv ht
    refine ⟨accessWay_of_lookup_some hl, by rw [memRead_hit hl], fun st w' => ?_, ?_⟩
    · simp [wayOf_memRead, hl]
    · rw [memRead_hit hl, touchWay_trace, emitIfData_trace]
  · have hl := lookup_eq_none_of_not_inCache hmiss
    refine ⟨accessWay_of_lookup_none hl, by rw [memRead_miss hl], fun st w' => ?_, ?_⟩
    · simp [wayOf_memRead, hl]
    · rw [memRead_miss hl, touchWay_trace, emit_trace, fillWay_trace, emitIfData_trace, accessWay_of_lookup_none hl]

/-- Settles O22, by the same two cases of the lookup. -/
theorem writeAccess : Obligations.WriteAccess := by
  intro a v s
  refine ⟨fun w hu hv ht => ?_, fun hmiss => ?_, wayOf_memWrite a v s, plru_memWrite a v s, fun hwf b => ?_,
    memWrite_eq_withAccess a v s⟩
  · have hl := lookup_eq_some hu hv ht
    exact ⟨accessWay_of_lookup_some hl, by rw [memWrite_trace, writeEvents, hl]⟩
  · have hl := lookup_eq_none_of_not_inCache hmiss
    exact ⟨accessWay_of_lookup_none hl, by rw [memWrite_trace, writeEvents, hl, accessWay_of_lookup_none hl]⟩
  · rw [memWrite_ram, read_write hwf]

/-- Settles O25: under the invariant a read gives RAM's word, and a write keeps the invariant. -/
theorem readReturnsRam : Obligations.ReadReturnsRam := by
  refine ⟨fun k a s hi => ⟨memRead_value hi.coherent k a, memRead_ram k a s⟩, fun k a b v s hi => ?_⟩
  rw [memRead_value (inv_memWrite hi a v).coherent, memWrite_ram, read_write hi.memory]

end Sys2Proof.Machine
end

section
/-! SUPPORT. The used bits of a word, field by field (spec/30_encoding.md R111), and the operands of the formats other
than R and C. -/

namespace Sys2Proof.Machine

/-! ### Masking a word -/

/-- Masking a word masks each of its fields. -/
theorem splitWord_and (w m : Word) : splitWord (w &&& m) =
    ⟨(splitWord w).op &&& (splitWord m).op, (splitWord w).arg1 &&& (splitWord m).arg1,
      (splitWord w).arg2 &&& (splitWord m).arg2, (splitWord w).data &&& (splitWord m).data⟩ := by
  simp only [splitWord, BitVec.extractLsb'_and]

theorem splitWord_usedBits_opcode : splitWord 0x0000003F = ⟨BitVec.allOnes 6, 0#5, 0#5, 0#16⟩ := by decide

theorem splitWord_usedBits_data5 : splitWord 0x001FFFFF =
    ⟨BitVec.allOnes 6, BitVec.allOnes 5, BitVec.allOnes 5, fromData5 (BitVec.allOnes 5)⟩ := by decide

theorem splitWord_usedBits_jmp : splitWord 0xFFFF1FFF =
    ⟨BitVec.allOnes 6, BitVec.allOnes 5, jmpBits true true, BitVec.allOnes 16⟩ := by decide

theorem splitWord_usedBits_all : splitWord 0xFFFFFFFF =
    ⟨BitVec.allOnes 6, BitVec.allOnes 5, BitVec.allOnes 5, BitVec.allOnes 16⟩ := by decide

theorem fromData5_data5 (d : BitVec 16) : fromData5 (data5 d) = d &&& fromData5 (BitVec.allOnes 5) := by
  have hmask : (fromData5 (BitVec.allOnes 5)).toNat = 2 ^ 5 - 1 := by decide
  apply BitVec.eq_of_toNat_eq
  rw [BitVec.toNat_and, hmask, Nat.and_two_pow_sub_one_eq_mod, fromData5, BitVec.toNat_append, BitVec.toNat_ofNat,
    Nat.zero_mod, Nat.zero_shiftLeft, Nat.zero_or, data5, BitVec.extractLsb'_toNat, Nat.shiftRight_zero]

theorem jmpBits_getLsbD (a : BitVec 5) : jmpBits (a.getLsbD 0) (a.getLsbD 1) = a &&& jmpBits true true := by
  revert a; decide

/-- The fields of an instruction are the used bits of the fields it was read from. -/
theorem encodeFields_of_decode {w : Word} {i : Instr} (h : decode w = some i) :
    encodeFields i = splitWord (w &&& usedBits i) := by
  obtain ⟨hop, hread⟩ := decodeFields_some h
  rw [splitWord_and, hop]
  cases i with
  | nop | halt =>
    simp only [usedBits, splitWord_usedBits_opcode, BitVec.and_allOnes, BitVec.and_zero]
    rfl
  | add | sub | lshift | rshift | comp | compgrt | complst =>
    obtain ⟨rfl, rfl, rfl⟩ := hread
    simp only [usedBits, splitWord_usedBits_data5, BitVec.and_allOnes, encodeFields, fromData5_data5]
  | load | store | print =>
    obtain ⟨rfl, rfl, rfl⟩ := hread
    simp only [usedBits, splitWord_usedBits_all, BitVec.and_allOnes, encodeFields, flagsBits_flagsOf]
  | jmp =>
    obtain ⟨rfl, rfl, rfl, rfl⟩ := hread
    simp only [usedBits, splitWord_usedBits_jmp, BitVec.and_allOnes, encodeFields, jmpBits_getLsbD]

theorem encode_of_decode {w : Word} {i : Instr} (h : decode w = some i) : encode i = w &&& usedBits i := by
  rw [encode, encodeFields_of_decode h, joinFields_splitWord]

theorem encode_injective {i j : Instr} (h : encode i = encode j) : i = j := by
  have hdecode := congrArg decode h
  rwa [decodeEncodeRoundTrip, decodeEncodeRoundTrip, Option.some_inj] at hdecode

/-! ### The opcode decides which bits are used -/

theorem usedBits_eq (i : Instr) : usedBits i =
    if (encodeFields i).op.toNat < 9 then 0x0000003F
    else if (encodeFields i).op.toNat < 25 then 0x001FFFFF
    else if (encodeFields i).op.toNat = 33 then 0xFFFF1FFF
    else 0xFFFFFFFF := by
  cases i with
  | _ => rfl

/-- The opcode is used by every instruction. -/
theorem splitWord_usedBits_op (i : Instr) : (splitWord (usedBits i)).op = BitVec.allOnes 6 := by
  cases i with
  | nop | halt => exact congrArg Fields.op splitWord_usedBits_opcode
  | add | sub | lshift | rshift | comp | compgrt | complst => exact congrArg Fields.op splitWord_usedBits_data5
  | load | store | print => exact congrArg Fields.op splitWord_usedBits_all
  | jmp => exact congrArg Fields.op splitWord_usedBits_jmp

theorem splitWord_op_eq_of_usedBits {w w' : Word} {i : Instr} (h : w &&& usedBits i = w' &&& usedBits i) :
    (splitWord w').op = (splitWord w).op := by
  have hop := congrArg (fun v => (splitWord v).op) h
  simp only [splitWord_and, splitWord_usedBits_op, BitVec.and_allOnes] at hop
  exact hop.symm

/-- Words with one opcode decode or not together. -/
theorem exists_decode_of_op_eq {w w' : Word} {i : Instr} (hop : (splitWord w').op = (splitWord w).op)
    (h : decode w = some i) : ∃ j, decode w' = some j := by
  rw [← Option.isSome_iff_exists, decode, decodeFields_isSome, hop, ← decodeFields_isSome, ← decode, h]
  rfl

/-- The used bits of a word say what it decodes to. -/
theorem decode_congr_usedBits {w w' : Word} {i : Instr} (hd : decode w = some i)
    (h : w &&& usedBits i = w' &&& usedBits i) : decode w' = some i := by
  have hop := splitWord_op_eq_of_usedBits h
  obtain ⟨j, hj⟩ := exists_decode_of_op_eq hop hd
  have hopj : (encodeFields j).op = (encodeFields i).op :=
    (decodeFields_some hj).1.symm.trans (hop.trans (decodeFields_some hd).1)
  have hused : usedBits j = usedBits i := by rw [usedBits_eq, usedBits_eq, hopj]
  have hji : j = i := encode_injective (by rw [encode_of_decode hj, encode_of_decode hd, hused, h])
  exact hji ▸ hj

/-! ### The operands of a word -/

/-- The operands of a word whose opcode reads `arg1`, `arg2` and `data` whole: `hop` is the decoder's line for it. -/
theorem decode_of_data {op : Nat} {mk : BitVec 5 → BitVec 5 → BitVec 16 → Instr}
    (hop : ∀ f : Fields, f.op.toNat = op → decodeFields f = some (mk f.arg1 f.arg2 f.data))
    (w : Word) (hw : w.toNat % 64 = op) :
    decode w = some (mk (splitWord w).arg1 (splitWord w).arg2 (splitWord w).data) :=
  hop (splitWord w) ((splitWord_op w).trans hw)

end Sys2Proof.Machine
end

section
/-! The statements on ignored bits and on words written out (spec/30_encoding.md sections 3 and 4). -/

namespace Sys2Proof.Machine

/-- Settles O30: of a word that decodes, the encoder gives back the used bits, and these determine the instruction. -/
theorem ignoredBitsOnlyAreDropped : Obligations.IgnoredBitsOnlyAreDropped :=
  ⟨fun _ _ hd => encode_of_decode hd, fun _ _ _ hd h => decode_congr_usedBits hd h⟩

/-- Settles O33, by evaluating the decoder. -/
theorem writtenOutWordsDecode : Obligations.WrittenOutWordsDecode := by
  unfold Obligations.WrittenOutWordsDecode
  decide

end Sys2Proof.Machine
end

section
/-! SUPPORT. What an instruction without an access, or without a destination, leaves unchanged. -/

namespace Sys2Proof.Machine

theorem noAccess_execState {i : Instr} {s : State} (h : accessState i s = s) : NoAccess s (execState i s) := by
  have haccess := execState_accessOf i s
  rw [h] at haccess
  exact haccess

/-- An instruction that makes no access makes only its fetch's in a step. -/
theorem fetchOnly_of_accessState {i : Instr} (h : ∀ s, accessState i s = s) : FetchOnly i :=
  fetchOnly_of fun s => ⟨_, exec_eq i s, noAccess_execState (h s)⟩

/-- An instruction without destinations, but HALT, leaves the three files as they were. -/
theorem execState_sameFiles {i : Instr} (hreg : regDest i = none) (hstatus : statusDest i = none) (hhalt : i ≠ .halt)
    (s : State) : SameRegs s (execState i s) ∧ SameStatus s (execState i s) ∧ SameControl s (execState i s) := by
  refine ⟨readReg_congr ?_, readStatus_congr ?_, ?_, execState_fault i s⟩
  · rw [execState_regs, regsAfter, hreg]
  · rw [execState_status, statusAfter, hstatus]
  · rw [execState_running, runningAfter, if_neg hhalt]

end Sys2Proof.Machine
end

section
/-! The statements on NOP, HALT and JMP (spec/40_step_nop_halt.md, spec/44_jump.md). -/

namespace Sys2Proof.Machine

/-- Settles O34: NOP is the default update of `pc`. -/
theorem nopResult : Obligations.NopResult :=
  ⟨decode_of_data (mk := fun _ _ _ => .nop) fun _ hop => by simp only [decodeFields, hop],
    fun _ => ⟨_, rfl, fun _ => rfl, fun _ => rfl, fun _ => rfl, ⟨rfl, rfl⟩, ⟨rfl, rfl, rfl⟩, rfl⟩,
    fetchOnly_of_accessState fun _ => rfl⟩

/-- Settles O35: HALT clears `running` before the default update of `pc`. -/
theorem haltResult : Obligations.HaltResult :=
  ⟨decode_of_data (mk := fun _ _ _ => .halt) fun _ hop => by simp only [decodeFields, hop],
    fun _ => ⟨_, rfl, rfl, rfl, fun _ => rfl, fun _ => rfl, fun _ => rfl, ⟨rfl, rfl, rfl⟩, rfl⟩,
    fetchOnly_of_accessState fun _ => rfl⟩

/-- Settles O49: JMP changes `pc` alone, to `nextPc`, whose number is the statement's. -/
theorem jmpResult : Obligations.JmpResult := by
  refine ⟨fun w hw => ?_, fun si onHigh dec disp s => ?_, fun _ _ _ _ => fetchOnly_of_accessState fun _ => rfl⟩
  · have hdecode := decode_of_data (mk := fun arg1 arg2 data => .jmp arg1 (arg2.getLsbD 0) (arg2.getLsbD 1) data)
      (fun _ hop => by simp only [decodeFields, hop]) w hw
    simpa [splitWord] using hdecode
  · obtain ⟨hregs, hstatus, hcontrol⟩ :=
      execState_sameFiles (i := .jmp si onHigh dec disp) rfl rfl Instr.noConfusion s
    exact ⟨_, exec_eq _ s, by rw [execState_pc, nextPc_toNat, pcAfter], hregs, hstatus,
      fun a => congrArg (Memory.read · a) (execState_ram (.jmp si onHigh dec disp) s), hcontrol,
      noAccess_execState rfl⟩

end Sys2Proof.Machine
end

section
/-! SUPPORT. LOAD, STORE and PRINT: all that one instruction does (spec/43_load_store.md, spec/45_print.md). -/

namespace Sys2Proof.Machine

theorem loadSource_immediate {f : Flags} (h : f.im = true) (iw : Word) (data : Addr) (s : State) :
    loadSource iw f data s = (iw, s) := by
  rw [loadSource, if_pos h]

theorem loadSource_memory {f : Flags} (h : f.im = false) (iw : Word) (data : Addr) (s : State) :
    loadSource iw f data s = memRead .data data s := by
  rw [loadSource, h, if_neg Bool.false_ne_true]

theorem storeOld_fst (f : Flags) (data : Addr) (s : State) :
    (storeOld f data s).1 = if f.hlf = true ∧ f.ow = false then (memRead .data data s).1 else 0 := by
  simp [storeOld, apply_ite Prod.fst]

theorem storeOld_snd (f : Flags) (data : Addr) (s : State) :
    (storeOld f data s).2 = if f.hlf = true ∧ f.ow = false then (memRead .data data s).2 else s := by
  simp [storeOld, apply_ite Prod.snd]

/-- All a LOAD does. -/
theorem execState_load_effect (rA : RegIdx) (f : Flags) (data : Addr) (s : State) :
    RegWritten rA (splice (loadSource (encode (.load rA f data)) f data s).1 (readReg s rA) f) s
      (execState (.load rA f data) s) ∧
    SameStatus s (execState (.load rA f data) s) ∧ SameMemory s (execState (.load rA f data) s) ∧
    SameControl s (execState (.load rA f data) s) ∧
    AccessOf (loadSource (encode (.load rA f data)) f data s).2 (execState (.load rA f data) s) ∧
    (execState (.load rA f data) s).pc = s.pc + 1 := by
  refine ⟨regWritten_of_regs (execState_regs _ s), readStatus_congr (execState_status _ s), fun a => ?_,
    ⟨execState_running _ s, execState_fault _ s⟩, execState_accessOf _ s, execState_pc _ s⟩
  rw [execState_ram]
  exact congrArg (Memory.read · a) (loadSource_ram ..)

/-- What an instruction that steps from a fetch does to the running flag and the latch. -/
theorem sameControl_of_step {s t : State} {i : Instr} (hd : decode (fetch s).1 = some i) (hhalt : i ≠ .halt)
    (h : step s = .next t) : SameControl s t := by
  rw [step_of_decode (step_cases h).1 hd] at h
  rw [exec_next h, SameControl, execState_running, execState_fault, runningAfter, if_neg hhalt, fetch_running,
    fetch_fault]
  exact ⟨rfl, rfl⟩

end Sys2Proof.Machine
end

section
/-! The statements on the splice, LOAD, STORE and PRINT (spec/43_load_store.md, spec/45_print.md). -/

namespace Sys2Proof.Machine

/-- Settles O43: each case joins two halves, each of them a quotient or a remainder by 65536. -/
theorem spliceCases : Obligations.SpliceCases := by
  intro src old im a b c
  simp [splice, joinHalves_toNat, highHalf_toNat, lowHalf_toNat]

/-- Settles O44: the two cases of the source, each with the rest of `execState_load_effect`. -/
theorem loadResult : Obligations.LoadResult := by
  refine ⟨fun w hw => ?_, fun w rA f data => encode_of_decode_load, fun rA f data s him => ?_,
    fun rA f data s him => ?_⟩
  · rw [← flagsOf_splitWord]
    exact decode_of_data (mk := fun arg1 arg2 data => .load arg1 (flagsOf arg2) data)
      (fun _ hop => by simp only [decodeFields, hop]) w hw
  · have heffect := execState_load_effect rA f data s
    rw [loadSource_immediate him] at heffect
    exact ⟨_, exec_eq _ s, heffect⟩
  · have heffect := execState_load_effect rA f data s
    rw [loadSource_memory him] at heffect
    exact ⟨_, exec_eq _ s, heffect⟩

/-- Settles O45: the LOAD executes on what the fetch left, whose registers and RAM are those of before. -/
theorem loadStep : Obligations.LoadStep := by
  intro s rA f data hi hr hd
  have hstep : step s = exec (.load rA f data) (fetch s).2 := step_of_decode hr (by rw [fetch_value hi.coherent, hd])
  obtain ⟨hregs, hstatus, hmem, hcontrol, -, hpc⟩ := execState_load_effect rA f data (fetch s).2
  rw [loadSource_value (inv_fetch hi).coherent, encode_of_decode_load hd, fetch_ram,
    readReg_congr (fetch_regs s)] at hregs
  rw [SameMemory, fetch_ram] at hmem
  rw [SameControl, fetch_running, fetch_fault] at hcontrol
  rw [fetch_pc] at hpc
  exact ⟨_, hstep.trans (exec_eq _ _), hregs.of_regs_eq (fetch_regs s),
    fun b => (hstatus b).trans (readStatus_congr (fetch_status s) b), hmem, hcontrol, hpc⟩

/-- Settles O46: the accesses of a STORE are those of `accessState`, and it has no destination. -/
theorem storeResult : Obligations.StoreResult := by
  refine ⟨fun w hw => ?_, fun w rA f data => encode_of_decode_store, fun rA f data s hwf => ?_⟩
  · rw [← flagsOf_splitWord]
    exact decode_of_data (mk := fun arg1 arg2 data => .store arg1 (flagsOf arg2) data)
      (fun _ hop => by simp only [decodeFields, hop]) w hw
  · obtain ⟨hregs, hstatus, hcontrol⟩ :=
      execState_sameFiles (i := .store rA f data) rfl rfl Instr.noConfusion s
    have hram : (execState (.store rA f data) s).ram = s.ram.write data
        (splice (storeSource (encode (.store rA f data)) f rA s) (storeOld f data s).1 f) := by
      rw [execState_ram, accessState, memWrite_ram, storeOld_ram]
    refine ⟨_, _, exec_eq _ s, by rw [← storeOld_fst, ← storeSource], ?_, fun b hb => ?_, hregs, hstatus,
      hcontrol, ?_, execState_pc _ s⟩
    · rw [hram, read_write hwf, if_pos rfl]
    · rw [hram, read_write hwf, if_neg hb]
    · rw [← storeOld_snd]
      exact execState_accessOf (.store rA f data) s

/-- Settles O47, by `step_store`. -/
theorem storeStep : Obligations.StoreStep := by
  intro s rA f data hi hr hd
  obtain ⟨t, ht, -, hregs, hstatus, hpc, hram⟩ := step_store hi hr hd
  refine ⟨t, ht, ?_, fun b hb => ?_, readReg_congr hregs, readStatus_congr hstatus, ?_, hpc⟩
  · rw [hram, read_write hi.memory, if_pos rfl]
  · rw [hram, read_write hi.memory, if_neg hb]
  · exact sameControl_of_step (by rw [fetch_value hi.coherent, hd]) Instr.noConfusion ht

/-- Settles O50: the read is a LOAD's, and the event that follows it changes nothing else. -/
theorem printResult : Obligations.PrintResult := by
  refine ⟨decode_of_data fun _ hop => by simp only [decodeFields, hop], fun ra rb data s => ?_⟩
  obtain ⟨hregs, hstatus, hcontrol⟩ := execState_sameFiles (i := .print ra rb data) rfl rfl Instr.noConfusion s
  obtain ⟨hcache, htrace, htracker⟩ := execState_accessOf (.print ra rb data) s
  refine ⟨_, exec_eq _ s, ?_, fun hi => memRead_value hi.coherent .data data, hcache, htracker, hregs, hstatus,
    fun a => ?_, hcontrol, execState_pc _ s⟩
  · rw [htrace, accessState, emit_trace, memRead_trace, readReg_congr (memRead_regs ..),
      readReg_congr (memRead_regs ..)]
  · rw [execState_ram, accessState, emit_ram, memRead_ram]

end Sys2Proof.Machine
end

section
/-! SUPPORT. What an event adds to the tracker's RAM set, and the cost of a list of events while the count fits its 64
bits (spec/70_reset_and_hazards.md R297, R298). -/

namespace Sys2Proof.Machine

theorem mem_observe_ramLocations {t : Tracker} {e : Event} {a : Addr} :
    a ∈ (observe t e).uniqueRamLocations ↔ e = .miss a ∨ a ∈ t.uniqueRamLocations := by
  cases e <;> simp [observe, mem_insertRising addrKey_inj, eq_comm]

/-- The nanoseconds of a list of events. -/
def eventsCost (es : List Event) : Nat := (es.map eventCost).sum

theorem eventsCost_append (es fs : List Event) : eventsCost (es ++ fs) = eventsCost es + eventsCost fs := by
  simp [eventsCost]

theorem foldl_observe_cycles_fits (es : List Event) : ∀ {t : Tracker}, t.cycles.toNat + eventsCost es < 2 ^ 64 →
    (es.foldl observe t).cycles.toNat = t.cycles.toNat + eventsCost es := by
  induction es with
  | nil => intro t _; rfl
  | cons e es ih =>
    intro t h
    have hcost : eventsCost (e :: es) = eventCost e + eventsCost es := rfl
    have hfirst : (observe t e).cycles.toNat = t.cycles.toNat + eventCost e := observe_cycles_fits (by omega)
    rw [List.foldl_cons, ih (by omega), hfirst, hcost, Nat.add_assoc]

theorem fetchEvents_cost (s : State) : eventsCost (fetchEvents s) = 1 := by
  unfold fetchEvents
  cases lookup (cacheSet s (setIdxOf s.pc)) (tagOf s.pc) <;> rfl

theorem readEvents_cost (a : Addr) (s : State) : eventsCost (readEvents a s) = accessCost a s := by
  unfold readEvents accessCost
  cases lookup (cacheSet s (setIdxOf a)) (tagOf a) <;> rfl

theorem writeEvents_cost (a : Addr) (s : State) : eventsCost (writeEvents a s) = accessCost a s := by
  unfold writeEvents accessCost
  cases lookup (cacheSet s (setIdxOf a)) (tagOf a) <;> rfl

theorem accessCost_le (a : Addr) (s : State) : accessCost a s ≤ 80 := by
  unfold accessCost
  split <;> omega

/-- An instruction costs its fetch and its data events. -/
theorem instrCost_eq (i : Instr) (s : State) : instrCost i s = 1 + eventsCost (dataEvents i s) := by
  cases i with
  | load rA f data =>
    simp only [instrCost, dataEvents]
    split
    · rfl
    · rw [readEvents_cost]
  | store rA f data =>
    have hwrite : eventsCost [.hit data, .writeCache (setIdxOf data) (accessWay data s)] = 1 := rfl
    simp only [instrCost, dataEvents]
    split
    · rw [eventsCost_append, readEvents_cost, hwrite]
      omega
    · rw [writeEvents_cost]
  | print ra rb data =>
    rw [instrCost, dataEvents, eventsCost_append, readEvents_cost]
    rfl
  | _ => rfl

theorem stepEvents_cost (s : State) : eventsCost (stepEvents s) = stepCost s := by
  unfold stepEvents stepCost
  cases decode (fetch s).1 with
  | none => exact fetchEvents_cost s
  | some i => rw [eventsCost_append, fetchEvents_cost, ← instrCost_eq]

theorem instrCost_le (i : Instr) (s : State) : instrCost i s ≤ 82 := by
  cases i with
  | load rA f data | store rA f data =>
    have := accessCost_le data s
    simp only [instrCost]
    split <;> omega
  | print ra rb data =>
    have := accessCost_le data s
    simp only [instrCost]
    omega
  | _ => exact (by decide : 1 ≤ 82)

theorem stepCost_le (s : State) : stepCost s ≤ 82 := by
  unfold stepCost
  cases decode (fetch s).1 with
  | none => exact (by decide : 1 ≤ 82)
  | some i => exact instrCost_le i _

end Sys2Proof.Machine
end

section
/-! The statements on the events of a step and their cost (spec/70_reset_and_hazards.md section 5). -/

namespace Sys2Proof.Machine

/-- Settles O51, by `observed_step`. -/
theorem stepEventsInOrder : Obligations.StepEvents :=
  fun _ _ h => (observed_step h).1

/-- Settles O52, by the rules of `observe`. -/
theorem trackerUpdate : Obligations.TrackerUpdate :=
  fun _ e hwf => ⟨observe_wf hwf e, fun _ => mem_observe_locations, fun _ => mem_observe_ramLocations,
    observe_cycles_fits⟩

/-- Settles O53: a step's tracker observes the events that its trace appends. -/
theorem trackerFollowsTraceKept : Obligations.TrackerFollowsTraceKept := by
  refine ⟨fun _ => rfl, fun s t hs h => ?_⟩
  obtain ⟨htrace, htracker⟩ := observed_step h
  rw [TrackerFollowsTrace, htrace, htracker, hs, trackerOf, trackerOf, List.foldl_append]

/-- Settles O55: the count is the fold of the step's events, whose cost is at most the 82 ns that fit. -/
theorem instructionCost : Obligations.InstructionCost := by
  intro s t h hfits
  have hle := stepCost_le s
  rw [(observed_step h).2, foldl_observe_cycles_fits _ (by rw [stepEvents_cost]; omega), stepEvents_cost]

end Sys2Proof.Machine
end

section
/-! SUPPORT. The host's operations: a cache without a valid way, and what `load` answers (spec/70_reset_and_hazards.md
section 1). -/

namespace Sys2Proof.Machine

/-- No way of the cache is valid. -/
def NoWayValid (s : State) : Prop := ∀ st w, (wayOf (cacheSet s st) w).valid = false

/-- With no way valid, what the invariant says of ways says nothing. -/
theorem inv_of_noWayValid {s : State} (hv : NoWayValid s) (hm : s.ram.wf) (hl : LatchStops s) (ht : s.tracker.wf) :
    Inv s where
  memory := hm
  coherent st w h := absurd h (Bool.eq_false_iff.mp (hv st w))
  unique st w _ h := absurd h (Bool.eq_false_iff.mp (hv st w))
  latch := hl
  sets := ht
  live st w h := absurd h (Bool.eq_false_iff.mp (hv st w))

theorem inv_applyReset {s : State} (hm : s.ram.wf) : Inv (applyReset s) :=
  inv_of_noWayValid (applyReset_way_invalid s) hm (fun h => absurd rfl h) ⟨List.Pairwise.nil, List.Pairwise.nil⟩

theorem mem_cache_iff {s : State} {c : CacheSet} : c ∈ s.cache.toList ↔ ∃ st, cacheSet s st = c := by
  rw [Vector.mem_toList_iff, Vector.mem_iff_getElem]
  exact ⟨fun ⟨k, hk, h⟩ => ⟨⟨k, hk⟩, h⟩, fun ⟨st, h⟩ => ⟨st.toNat, st.isLt, h⟩⟩

theorem mem_ways_iff {c : CacheSet} {y : Way} : y ∈ c.ways.toList ↔ ∃ w, wayOf c w = y := by
  rw [Vector.mem_toList_iff, Vector.mem_iff_getElem]
  exact ⟨fun ⟨k, hk, h⟩ => ⟨⟨k, hk⟩, h⟩, fun ⟨w, h⟩ => ⟨w.toNat, w.isLt, h⟩⟩

theorem anyWayValid_iff (s : State) : anyWayValid s = true ↔ ∃ st w, (wayOf (cacheSet s st) w).valid = true := by
  simp only [anyWayValid, List.any_eq_true, mem_cache_iff, mem_ways_iff, exists_exists_eq_and]

theorem anyWayValid_eq_false_iff (s : State) : anyWayValid s = false ↔ NoWayValid s := by
  simp only [← Bool.not_eq_true, anyWayValid_iff, not_exists, NoWayValid]

/-- A step leaves a valid way: the one that holds the word it fetched. -/
theorem anyWayValid_of_step {s t : State} (h : step s = .next t) : anyWayValid t = true := by
  have hfetched : lookup (cacheSet (fetch s).2 (setIdxOf s.pc)) (tagOf s.pc) = _ :=
    lookup_memRead .fetch s.pc (emit s (.fetch s.pc))
  exact (anyWayValid_iff t).2 ⟨_, _, validKept_fetch_step h _ _ (lookup_some hfetched).1⟩

theorem load_of_anyWayValid {s : State} (hv : anyWayValid s = true) (image : List Word) :
    load image s = .refused .loadWhileCacheValid := by
  rw [load, if_pos hv]

theorem load_of_too_long {s : State} (hv : NoWayValid s) {image : List Word} (hlen : 65536 < image.length) :
    load image s = .refused .imageTooLong := by
  have hform : ¬ imageWellFormed image = true := by simpa [imageWellFormed] using hlen
  rw [load, (anyWayValid_eq_false_iff s).2 hv, if_neg Bool.false_ne_true, if_neg hform]

theorem load_of_fits {s : State} (hv : NoWayValid s) {image : List Word} (hlen : image.length ≤ 65536) :
    load image s = .next { s with ram := Memory.loadFrom 0 image s.ram } := by
  have hform : imageWellFormed image = true := by simpa [imageWellFormed] using hlen
  rw [load, (anyWayValid_eq_false_iff s).2 hv, if_neg Bool.false_ne_true, if_pos hform]

/-- The inversion of `load`. -/
theorem load_next {s t : State} {image : List Word} (h : load image s = .next t) :
    NoWayValid s ∧ t = { s with ram := Memory.loadFrom 0 image s.ram } := by
  unfold load at h
  split at h
  · cases h
  · next hv =>
    split at h
    · injection h with h
      exact ⟨(anyWayValid_eq_false_iff s).1 (Bool.eq_false_iff.mpr hv), h.symm⟩
    · cases h

theorem read_loadFrom_zero {m : Memory} (hm : m.wf) {image : List Word} (hlen : image.length ≤ 65536) (a : Addr) :
    (Memory.loadFrom 0 image m).read a = (image[a.toNat]?).getD (m.read a) := by
  rw [read_loadFrom image 0 hm (by omega) a, if_pos (Nat.zero_le _), Nat.sub_zero]

/-- The first event of a step is its FETCH. -/
theorem fetchEvents_head? (s : State) : (fetchEvents s).head? = some (.fetch s.pc) := by
  unfold fetchEvents
  split <;> rfl

end Sys2Proof.Machine
end

section
/-! The statements on the host's operations (spec/70_reset_and_hazards.md sections 1 to 3). -/

namespace Sys2Proof.Machine

/-- Settles O24: reset and load leave a cache without a valid way, and load keeps RAM's canonical form. -/
theorem hostEstablishesInvariant : Obligations.HostEstablishesInvariant := by
  refine ⟨inv_applyReset (s := State.reset) nil_wf, fun s => inv_applyReset, fun image s t hi h => ?_⟩
  obtain ⟨hv, rfl⟩ := load_next h
  exact inv_of_noWayValid hv (loadFrom_wf image 0 hi.memory) hi.latch hi.sets

/-- Settles O57, by the three answers of `load`; a step's fetch leaves a valid way. -/
theorem hostLoad : Obligations.HostLoad := by
  refine ⟨fun image s hv => load_of_anyWayValid ((anyWayValid_iff s).2 hv) image,
    fun image s t h => load_of_anyWayValid (anyWayValid_of_step h) image,
    fun image s hv hlen => load_of_too_long hv hlen, fun image s hv hlen hm => ?_⟩
  exact ⟨_, load_of_fits hv hlen, rfl, read_loadFrom_zero hm hlen⟩

/-- Settles O58: the loaded state is a reset one, so it meets the invariant and its first fetch gives `RAM[0]`. -/
theorem bootSequence : Obligations.BootSequence := by
  intro image s hlen
  have hload := load_of_fits (s := powerOn s) (applyReset_way_invalid _) hlen
  have hwf : Memory.wf (Memory.loadFrom 0 image []) := loadFrom_wf image 0 nil_wf
  have hread : ∀ a, (Memory.loadFrom 0 image []).read a = (image[a.toNat]?).getD 0 := read_loadFrom_zero nil_wf hlen
  have hi : Inv (applyReset { powerOn s with ram := Memory.loadFrom 0 image [] }) := inv_applyReset hwf
  refine ⟨_, hload, rfl, rfl, rfl, hread, ?_, ?_, fun fuel => ?_⟩
  · refine (fetch_value hi.coherent).trans ((hread 0).trans ?_)
    cases image <;> rfl
  · rw [fetch_trace]
    exact fetchEvents_head? _
  · rw [boot, hload]

end Sys2Proof.Machine
end
